-- ==== Sys2Proof/Word.lean ====
section
/-! DEFINITION. The word type of the engine: every field-element register, scalar register and point coordinate is `W` bits
wide and unsigned (spec/00_scope.md R8). -/

namespace Sys2Proof

/-- A `W`-bit register value, an unsigned integer in `[0, 2^W)` (R8). -/
abbrev Word (W : Nat) := BitVec W

/-- The opcode and reserved fields of the one 32-bit command word (R70). -/
abbrev CmdWord := BitVec 32

end Sys2Proof
end

