-- ==== Sys2Proof/Syntax.lean ====
section
/-! DEFINITION. The eight commands of the engine (spec/30_encoding.md R73, R74), one constructor per row of spec/opcode_table.json.
The operands are register numbers only: there are no immediates (R72). -/

namespace Sys2Proof

/-- The number of a scalar register `SR0..SR7` (spec/10_state.md R37). -/
abbrev SReg := Fin 8

/-- The number of a point register `PR0..PR7` (spec/10_state.md R27). -/
abbrev PReg := Fin 8

/-- The commands, each with the fields R73 gives it, in the order of the command word (`RD`, `RD2`, `RS1`, `RS2`, `RS3`, `RK`). -/
inductive Instr where
  /-- `inv sD, sK` (R105): modular inverse of a scalar register. -/
  | inv (rd rk : SReg)
  /-- `padd pD, pA, pB` (R131): add two point registers. -/
  | padd (rd rs1 rs2 : PReg)
  /-- `pneg pD, pA` (R123): negate a point register. -/
  | pneg (rd rs1 : PReg)
  /-- `pmul pD, pA, sK` (R153): scalar multiple of a point register. -/
  | pmul (rd rs1 : PReg) (rk : SReg)
  /-- `peq sD, pA, pB` (R121): compare two point registers. -/
  | peq (rd : SReg) (rs1 rs2 : PReg)
  /-- `encode pD, sK` (R164): encode a scalar register as a point. -/
  | encode (rd : PReg) (rk : SReg)
  /-- `enc pD, pE, pM, pQ, pG, sK` (R171): encrypt a message point, `C1` to `rd` and `C2` to `rd2`. -/
  | enc (rd rd2 rs1 rs2 rs3 : PReg) (rk : SReg)
  /-- `dec pD, pA, pB, sK` (R173): decrypt a ciphertext pair. -/
  | dec (rd rs1 rs2 : PReg) (rk : SReg)
  deriving DecidableEq, Repr

end Sys2Proof
end

