-- ==== Sys2Proof/WellFormed.lean ====
section
/-! DEFINITION. Which commands the encoding can name. Register numbers are below 8 by their type, so one check is left:
`ENC` names two different destinations (spec/30_encoding.md R77). -/

namespace Sys2Proof

/-- A command with a legal encoding (R77: `ENC` with `RD == RD2` has none). -/
def wellFormed : Instr → Bool
  | .inv _ _ => true
  | .padd _ _ _ => true
  | .pneg _ _ => true
  | .pmul _ _ _ => true
  | .peq _ _ _ => true
  | .encode _ _ => true
  | .enc rd rd2 _ _ _ _ => rd != rd2
  | .dec _ _ _ _ => true

/-- The check as a proposition, for statements. -/
abbrev WellFormed (i : Instr) : Prop := wellFormed i = true

end Sys2Proof
end

