-- ==== Sys2Proof/Decode.lean ====
section
/-! DEFINITION. The command word: its one format `C` (spec/30_encoding.md R70, R71), the opcode table (R74), the total decoder
(R75 to R78, R80), which rejects by name, and after it the encoder (R71, R81). -/

namespace Sys2Proof

/-- The fields of format `C`, from the top bit down (R71). -/
structure Fields where
  opc : BitVec 8
  rd : BitVec 3
  rd2 : BitVec 3
  rs1 : BitVec 3
  rs2 : BitVec 3
  rs3 : BitVec 3
  rk : BitVec 3
  z : BitVec 6
  deriving DecidableEq, Repr

/-- The fields of a command word: `OPC = w[31:24]`, `RD = w[23:21]`, `RD2 = w[20:18]`, `RS1 = w[17:15]`, `RS2 = w[14:12]`,
`RS3 = w[11:9]`, `RK = w[8:6]`, `Z = w[5:0]` (R71, R80). -/
def unpack (w : CmdWord) : Fields where
  opc := w.extractLsb' 24 8
  rd := w.extractLsb' 21 3
  rd2 := w.extractLsb' 18 3
  rs1 := w.extractLsb' 15 3
  rs2 := w.extractLsb' 12 3
  rs3 := w.extractLsb' 9 3
  rk := w.extractLsb' 6 3
  z := w.extractLsb' 0 6

/-- A register field is a 3-bit unsigned register number used as it stands (R72). -/
def regOfField (f : BitVec 3) : Fin 8 := f.toFin

/-- The field that holds a register number (R72). -/
def fieldOfReg (i : Fin 8) : BitVec 3 := BitVec.ofFin i

/-- The eight commands as names (R74). -/
inductive Opcode where
  | inv | padd | pneg | pmul | peq | encode | enc | dec
  deriving DecidableEq, Repr

/-- One row of R74's table: `w` is the command iff `w & mask == pattern` (the spec calls the pattern `match`). -/
structure OpRow where
  op : Opcode
  opc : BitVec 8
  pattern : CmdWord
  mask : CmdWord
  deriving DecidableEq, Repr

/-- The opcode map of R74 (also spec/opcode_table.json). -/
def opcodeTable : List OpRow := [
  ⟨.inv,    0x01, 0x01000000, 0xFF1FFE3F⟩,
  ⟨.padd,   0x02, 0x02000000, 0xFF1C0FFF⟩,
  ⟨.pneg,   0x03, 0x03000000, 0xFF1C7FFF⟩,
  ⟨.pmul,   0x04, 0x04000000, 0xFF1C7E3F⟩,
  ⟨.peq,    0x05, 0x05000000, 0xFF1C0FFF⟩,
  ⟨.encode, 0x06, 0x06000000, 0xFF1FFE3F⟩,
  ⟨.enc,    0x07, 0x07000000, 0xFF00003F⟩,
  ⟨.dec,    0x08, 0x08000000, 0xFF1C0E3F⟩]

/-- The row of an opcode value, if it is not reserved (R75). -/
def rowOf (opc : BitVec 8) : Option OpRow := opcodeTable.find? (fun row => row.opc == opc)

/-- Why a word is no legal command (R78); each raises `IllegalCommand`. -/
inductive DecodeError where
  /-- `OPC` is `0x00` or `0x09..0xFF` (R75). -/
  | reservedOpcode
  /-- `Z`, or a field the command does not use, is not zero (R76). -/
  | nonzeroUnusedField
  /-- `ENC` with `RD == RD2` (R77). -/
  | sameDestinations
  deriving DecidableEq, Repr

/-- The command an opcode makes of the fields it uses (R73), `ENC` with equal destinations refused (R77). -/
def assemble (op : Opcode) (f : Fields) : Except DecodeError Instr :=
  match op with
  | .inv => .ok (.inv (regOfField f.rd) (regOfField f.rk))
  | .padd => .ok (.padd (regOfField f.rd) (regOfField f.rs1) (regOfField f.rs2))
  | .pneg => .ok (.pneg (regOfField f.rd) (regOfField f.rs1))
  | .pmul => .ok (.pmul (regOfField f.rd) (regOfField f.rs1) (regOfField f.rk))
  | .peq => .ok (.peq (regOfField f.rd) (regOfField f.rs1) (regOfField f.rs2))
  | .encode => .ok (.encode (regOfField f.rd) (regOfField f.rk))
  | .enc =>
    if f.rd = f.rd2 then .error .sameDestinations
    else .ok (.enc (regOfField f.rd) (regOfField f.rd2) (regOfField f.rs1) (regOfField f.rs2) (regOfField f.rs3) (regOfField f.rk))
  | .dec => .ok (.dec (regOfField f.rd) (regOfField f.rs1) (regOfField f.rs2) (regOfField f.rk))

/-- The decoder of R80, total on every 32-bit word. -/
def decode (w : CmdWord) : Except DecodeError Instr :=
  match rowOf (unpack w).opc with
  | none => .error .reservedOpcode
  | some row => if w &&& row.mask = row.pattern then assemble row.op (unpack w) else .error .nonzeroUnusedField

/-- The word `{OPC, RD, RD2, RS1, RS2, RS3, RK, Z}` (R71). -/
def pack (f : Fields) : CmdWord := f.opc ++ f.rd ++ f.rd2 ++ f.rs1 ++ f.rs2 ++ f.rs3 ++ f.rk ++ f.z

/-- The fields of a command, every unused one zero (R73, R76, R81). -/
def fieldsOf : Instr → Fields
  | .inv rd rk => ⟨0x01, fieldOfReg rd, 0, 0, 0, 0, fieldOfReg rk, 0⟩
  | .padd rd rs1 rs2 => ⟨0x02, fieldOfReg rd, 0, fieldOfReg rs1, fieldOfReg rs2, 0, 0, 0⟩
  | .pneg rd rs1 => ⟨0x03, fieldOfReg rd, 0, fieldOfReg rs1, 0, 0, 0, 0⟩
  | .pmul rd rs1 rk => ⟨0x04, fieldOfReg rd, 0, fieldOfReg rs1, 0, 0, fieldOfReg rk, 0⟩
  | .peq rd rs1 rs2 => ⟨0x05, fieldOfReg rd, 0, fieldOfReg rs1, fieldOfReg rs2, 0, 0, 0⟩
  | .encode rd rk => ⟨0x06, fieldOfReg rd, 0, 0, 0, 0, fieldOfReg rk, 0⟩
  | .enc rd rd2 rs1 rs2 rs3 rk =>
    ⟨0x07, fieldOfReg rd, fieldOfReg rd2, fieldOfReg rs1, fieldOfReg rs2, fieldOfReg rs3, fieldOfReg rk, 0⟩
  | .dec rd rs1 rs2 rk => ⟨0x08, fieldOfReg rd, 0, fieldOfReg rs1, fieldOfReg rs2, 0, fieldOfReg rk, 0⟩

/-- The command word of a command (R81). -/
def encode (i : Instr) : CmdWord := pack (fieldsOf i)

/-- The command read from a word numbered as spec/opcode_table.json numbers it: bits at and above `nbits` are zero, and the
command word is the 32 low bits (R52, R70). -/
def decodeTableWord (nbits w : Nat) : Option Instr := (decode (BitVec.ofNat 32 (w % 2 ^ nbits))).toOption

end Sys2Proof
end

