-- ==== Sys2Proof/Config.lean ====
section
/-! DEFINITION. What is fixed for one engine: its one open parameter, the width `W` (spec/00_scope.md R8, R10; spec/92_eei_decisions.md
D1). The other open parameter of the spec, `BUS_MAP`, does not enter the model (spec/20_memory.md R57). No free value is needed:
the spec leaves no result of any command open (spec/93_implementation_defined.md, section 1). -/

namespace Sys2Proof

/-- The width parameter of R8: `W` bits in every element, scalar and coordinate register, with `W >= 8`. -/
structure Config where
  W : Nat
  hW : 8 ≤ W
  deriving DecidableEq, Repr

/-- The port data width `DW = max(W, 32)` of R10 and R50. -/
abbrev Config.DW (c : Config) : Nat := max c.W 32

/-- The engine of the spec's vectors, which take `W = 32` unless they say otherwise (spec/95_test_vectors.md, conventions).
DESIGN CHOICE (notes/assumptions/1.md): the width `State.reset` has; every statement is made for every width. -/
def Config.w32 : Config := ⟨32, by decide⟩

/-- A second width the spec's vectors use (E17, E18, S10): the smallest legal one. -/
def Config.w8 : Config := ⟨8, by decide⟩

end Sys2Proof
end

