-- ==== Sys2Proof/Machine/State.lean ====
section
/-! DEFINITION. The state of the engine as plain data: the architectural registers exactly as spec/10_state.md R21 lists them, the
width parameter, and the host's side of the register port. The hidden working state of R32 and R33 is not observable and none is
kept (R34). -/

namespace Sys2Proof.Machine

/-- One point register: the tag `INF` and the coordinates `X`, `Y` (R27). -/
structure PointReg (W : Nat) where
  inf : Bool
  x : Word W
  y : Word W
  deriving DecidableEq, Repr

/-- The architectural state: exactly the `44 + 27W` bits of R21. -/
structure Regs (W : Nat) where
  /-- `CMD`, 32 bits: the last word written (R24). -/
  cmd : CmdWord
  /-- `STATUS.ERR`, 4 bits: the code of the most recent command; the rest of `STATUS` reads as zero and is no state (R25). -/
  err : BitVec 4
  /-- `CA`, the coefficient `a` (R26). -/
  ca : Word W
  /-- `CB`, the coefficient `b` (R26). -/
  cb : Word W
  /-- `CP`, the modulus `p` (R26). -/
  cp : Word W
  /-- `SR0..SR7` (R37). -/
  sr : Vector (Word W) 8
  /-- `PR0..PR7` (R27). -/
  pr : Vector (PointReg W) 8
  deriving DecidableEq, Repr

/-- What can reach the engine from outside, one at a time: the two accesses of the register port (R14, R50) and the reset input
(R220, R221: a step of its own between two accesses). `dw` is the port data width `DW`. -/
inductive Input (dw : Nat) where
  | read (idx : BitVec 6)
  | write (idx : BitVec 6) (v : BitVec dw)
  | reset
  deriving DecidableEq, Repr

/-- A point value (R15): the point at infinity, or an affine pair of unsigned integers. -/
inductive Point where
  | inf
  | aff (x y : Nat)
  deriving DecidableEq, Repr

/-- The four errors (R14, R190). -/
inductive CmdError where
  | noInverse
  | encodingFailure
  | illegalCommand
  | operandRange
  deriving DecidableEq, Repr

/-- The machine: its width, its architectural registers, and the MODEL'S OWN two lists that carry the host's side of the port
(notes/assumptions/2.md): the inputs still to come, oldest first, which R36 calls a parameter of the step relation, and the words
the port has answered to reads, oldest first (R51). -/
structure State where
  cfg : Config
  regs : Regs cfg.W
  pending : List (Input cfg.DW)
  replies : List (BitVec cfg.DW)
  deriving DecidableEq, Repr

/-- Reasons the machine could stop with a fault. There is none, and no constructor: every error of the engine is a code in
`STATUS.ERR` after which the port accepts the next access (R194, R197), and no encoding's behaviour is left open (R78). -/
inductive Fault where
  deriving DecidableEq, Repr

/-- Reasons the model could refuse. No arm of `exec` and no meaning raises one. -/
inductive Refusal where
  /-- An instruction without a meaning yet, by its mnemonic. Raised by a refused arm of `exec`; there is none in this model. Safe:
  the run stops. -/
  | notModelled (mnemonic : String)
  deriving DecidableEq, Repr

/-- What a step answers. -/
abbrev Result := Host.Outcome State Fault Refusal

/-- Every architectural register at its reset value (R35): all zero, and every point register `Inf` in canonical form. -/
def Regs.reset {W : Nat} : Regs W where
  cmd := 0
  err := 0
  ca := 0
  cb := 0
  cp := 0
  sr := Vector.replicate 8 0
  pr := Vector.replicate 8 ⟨true, 0, 0⟩

/-- An engine of any width right after reset, with no input pending and nothing read (R35, R220). -/
def State.resetOf (c : Config) : State where
  cfg := c
  regs := Regs.reset
  pending := []
  replies := []

/-- The machine right after reset (R35), at the width of the spec's vectors (notes/assumptions/1.md). -/
def State.reset : State := State.resetOf Config.w32

end Sys2Proof.Machine
end

