-- ==== Sys2Proof/Machine/Flags.lean ====
section
/-! DEFINITION. The only flag-like field, `STATUS.ERR` (spec/10_state.md R23, R25): its codes (spec/60_exceptions.md R190), its one
writer, and the word `STATUS` reads as. There is no carry, zero, sign or overflow flag (R23). -/

namespace Sys2Proof.Machine

/-- The code of no error: the command completed and wrote its destination (R25). -/
def noError : BitVec 4 := 0

/-- The error codes of R190. -/
def CmdError.code : CmdError → BitVec 4
  | .noInverse => 1
  | .encodingFailure => 2
  | .illegalCommand => 3
  | .operandRange => 4

/-- Write `STATUS.ERR` (R23: by a command at its end and by nothing else). -/
def Regs.setErr {W : Nat} (r : Regs W) (e : BitVec 4) : Regs W := { r with err := e }

/-- The word `STATUS`, `ERR` in bits `[3:0]` and zero above (R25). -/
def Regs.status {W : Nat} (r : Regs W) : BitVec 32 := r.err.setWidth 32

end Sys2Proof.Machine
end

