-- ==== Sys2Proof/Machine/Operands.lean ====
section
/-! DEFINITION. Operands: how a command reads the registers its word names (spec/00_scope.md R14, spec/10_state.md R28, R37), the range
checks on them (spec/60_exceptions.md R193), and the register index map of the port (spec/10_state.md R30). -/

namespace Sys2Proof.Machine

/-- The value a point register holds (R28): `Inf` when `INF = 1`, whatever `X` and `Y` hold, else `Aff(X, Y)`. -/
def PointReg.value {W : Nat} (q : PointReg W) : Point := if q.inf then .inf else .aff q.x.toNat q.y.toNat

/-- The stored form of a point value (R14, R28): `Inf` as `1/0/0`, `Aff(x, y)` as `0/x/y`. -/
def PointReg.ofPoint (W : Nat) : Point → PointReg W
  | .inf => ⟨true, 0, 0⟩
  | .aff x y => ⟨false, BitVec.ofNat W x, BitVec.ofNat W y⟩

section
variable {W : Nat}

/-- `CA` as the coefficient `a` (R26). -/
def Regs.coeffA (r : Regs W) : Nat := r.ca.toNat

/-- `CB` as the coefficient `b` (R26). -/
def Regs.coeffB (r : Regs W) : Nat := r.cb.toNat

/-- `CP` as the modulus `p` (R26). -/
def Regs.modulus (r : Regs W) : Nat := r.cp.toNat

/-- `SR[i]` as an unsigned integer (R14). -/
def Regs.scalar (r : Regs W) (i : SReg) : Nat := r.sr[i].toNat

/-- `PR[i]` as a point value (R14, R28). -/
def Regs.point (r : Regs W) (i : PReg) : Point := r.pr[i].value

/-- Range check (a) of R193: `CP >= 2`. -/
def Regs.modulusOk (r : Regs W) : Bool := decide (2 ≤ r.modulus)

/-- Coordinates in `[0, p)`; `Inf` passes (R193 (b)). -/
def Point.inRange (p : Nat) : Point → Bool
  | .inf => true
  | .aff x y => decide (x < p) && decide (y < p)

/-- Range check (b) of R193 on one source point register. -/
def Regs.pointOk (r : Regs W) (i : PReg) : Bool := (r.point i).inRange r.modulus

/-- Range check (c) of R193: the whole search window of `ENCODE` fits a `W`-bit `X` field, `10*m + 9 < 2^W`. -/
def Regs.windowOk (r : Regs W) (i : SReg) : Bool := decide (10 * r.scalar i + 9 < 2 ^ W)

/-- `SR[i] <- v` (R14); every rule that writes one keeps `v` below `2^W`. -/
def Regs.setScalar (r : Regs W) (i : SReg) (v : Nat) : Regs W := { r with sr := r.sr.set i (BitVec.ofNat W v) }

/-- `PR[i] <- P` (R14, R28). -/
def Regs.setPoint (r : Regs W) (i : PReg) (P : Point) : Regs W := { r with pr := r.pr.set i (PointReg.ofPoint W P) }

end

/-- What a register index names (R30). -/
inductive RegName where
  | cmd
  | status
  | ca
  | cb
  | cp
  | sr (i : SReg)
  | tag (i : PReg)
  | x (i : PReg)
  | y (i : PReg)
  | reserved
  deriving DecidableEq, Repr

/-- The three fields of a point register and the reserved slot, at offsets 0 to 3 from `0x10 + 4i` (R30). -/
def pointField (i : PReg) (offset : Nat) : RegName :=
  match offset with
  | 0 => .tag i
  | 1 => .x i
  | 2 => .y i
  | _ => .reserved

/-- The register index map of R30, total on the 64 indices. -/
def regAt (idx : BitVec 6) : RegName :=
  let n := idx.toNat
  if n = 0x00 then .cmd
  else if n = 0x01 then .status
  else if n = 0x02 then .ca
  else if n = 0x03 then .cb
  else if n = 0x04 then .cp
  else if n < 0x08 then .reserved
  else if n < 0x10 then .sr (Fin.ofNat 8 (n - 0x08))
  else if n < 0x30 then pointField (Fin.ofNat 8 ((n - 0x10) / 4)) ((n - 0x10) % 4)
  else .reserved

end Sys2Proof.Machine
end

