-- ==== Sys2Proof/Machine/Ops.lean ====
section
/-! DEFINITION. The shared operations: raising an error (spec/60_exceptions.md R194), the execution template every command follows
(spec/30_encoding.md R84), and the read and the write of one register at the port (spec/20_memory.md R51, R52). There is no return
from an error: nothing was saved and nothing is restored (R197). -/

namespace Sys2Proof.Machine

/-- `raise <Error>` (R194): the command stops, no destination is written, `STATUS.ERR` takes the code, and the machine goes on. -/
def raise (e : CmdError) (s : State) : Result := .next { s with regs := s.regs.setErr e.code }

/-- The end of a command that succeeded: its destinations are written and `STATUS.ERR <- 0` (R84). -/
def complete (s : State) (r : Regs s.cfg.W) : Result := .next { s with regs := r.setErr noError }

/-- The template of R84 after decoding: the range check, then the function on the source registers as they stand before anything is
written, then either its error with no destination written or all destinations and `ERR = 0`. The order of the two checks is R195's. -/
def command {α : Type} (s : State) (inRange : Bool) (result : Except CmdError α) (write : α → Regs s.cfg.W) : Result :=
  if inRange then
    match result with
    | .ok v => complete s (write v)
    | .error e => raise e s
  else raise .operandRange s

section
variable {W : Nat}

/-- `HostRead` (R51): the register's value zero-extended to `DW` bits, 0 for a reserved index. -/
def Regs.read (r : Regs W) (dw : Nat) : RegName → BitVec dw
  | .cmd => r.cmd.setWidth dw
  | .status => r.status.setWidth dw
  | .ca => r.ca.setWidth dw
  | .cb => r.cb.setWidth dw
  | .cp => r.cp.setWidth dw
  | .sr i => r.sr[i].setWidth dw
  | .tag i => (BitVec.ofBool r.pr[i].inf).setWidth dw
  | .x i => r.pr[i].x.setWidth dw
  | .y i => r.pr[i].y.setWidth dw
  | .reserved => 0

/-- The storing part of `HostWrite` (R52): the register takes the low bits of the word, `INF` takes bit 0, and `STATUS` and a reserved
index ignore the write. A write of `CMD` also executes the word (`executeWord`). -/
def Regs.write (r : Regs W) {dw : Nat} (n : RegName) (v : BitVec dw) : Regs W :=
  match n with
  | .cmd => { r with cmd := v.setWidth 32 }
  | .status => r
  | .ca => { r with ca := v.setWidth W }
  | .cb => { r with cb := v.setWidth W }
  | .cp => { r with cp := v.setWidth W }
  | .sr i => { r with sr := r.sr.set i (v.setWidth W) }
  | .tag i => { r with pr := r.pr.set i { r.pr[i] with inf := v.getLsbD 0 } }
  | .x i => { r with pr := r.pr.set i { r.pr[i] with x := v.setWidth W } }
  | .y i => { r with pr := r.pr.set i { r.pr[i] with y := v.setWidth W } }
  | .reserved => r

end

end Sys2Proof.Machine
end

