-- ==== Sys2Proof/Machine/Codec.lean ====
section
/-! DEFINITION. MessageCodec (spec/43_message_codec.md): the brute-force encoder, and `ENCODE`. -/

namespace Sys2Proof.Machine

/-- `rhs = (x*x*x + a*x + b) mod p`, from the unreduced `x` (R160, R163). -/
def curveRhs (x a b p : Nat) : Nat := (x * x * x + a * x + b) % p

/-- The inner loop of R160: the first of the next `count` values from `y` up whose square is `rhs` modulo `p`. -/
def firstRoot (p rhs : Nat) : Nat → Nat → Option Nat
  | 0, _ => none
  | count + 1, y => if y * y % p = rhs then some y else firstRoot p rhs count (y + 1)

/-- The outer loop of R160: the first of the next `count` values from `x` up that has a root, with its smallest root. -/
def searchWindow (a b p : Nat) : Nat → Nat → Except CmdError Point
  | 0, _ => .error .encodingFailure
  | count + 1, x =>
    match firstRoot p (curveRhs x a b p) p 0 with
    | some y => .ok (.aff x y)
    | none => searchWindow a b p count (x + 1)

/-- `encode(m, a, b, p)` (R160 to R163): the window `[10m, 10m + 10)`, and `EncodingFailure` when none of its ten `x` has a root. -/
def encodeMsg (m a b p : Nat) : Except CmdError Point := searchWindow a b p 10 (10 * m)

/-- `ENCODE` (R164): `PR[RD] <- encode(SR[RK], CA, CB, CP)`. -/
def execEncode (rd : PReg) (rk : SReg) (s : State) : Result :=
  command s (s.regs.modulusOk && s.regs.windowOk rk)
    (encodeMsg (s.regs.scalar rk) s.regs.coeffA s.regs.coeffB s.regs.modulus) (fun P => s.regs.setPoint rd P)

end Sys2Proof.Machine
end

