-- ==== Sys2Proof/Machine/Arith.lean ====
section
/-! DEFINITION. The integer notation of spec/00_scope.md R13 over exact integers (R9). -/

namespace Sys2Proof.Machine

/-- `x mod p` of R13: the floor modulus of any integer, in `[0, p)` for `p >= 1`. -/
def modP (x : Int) (p : Nat) : Nat := (x % (p : Int)).toNat

/-- `bitlen(k)` of R13: 0 for `k = 0`, else the position of the highest set bit plus one. -/
def bitlen (k : Nat) : Nat := if k = 0 then 0 else Nat.log2 k + 1

end Sys2Proof.Machine
end

