-- ==== Sys2Proof/Machine/Field.lean ====
section
/-! DEFINITION. FieldArithmetic (spec/40_field_inverse.md): the modular inverse by the extended Euclidean algorithm, and `INV`. -/

namespace Sys2Proof.Machine

/-- The working values of the algorithm (R32, R101): the coefficient pair is signed, the remainder pair is not. -/
structure Euclid where
  t : Int
  newt : Int
  r : Nat
  newr : Nat
  deriving DecidableEq, Repr

/-- The start `t = 0, newt = 1, r = p, newr = a` (R101, R106). -/
def euclidInit (a p : Nat) : Euclid := ⟨0, 1, p, a⟩

/-- One iteration (R101): both rotations use the old values. -/
def euclidStep (e : Euclid) : Euclid :=
  ⟨e.newt, e.t - (e.r / e.newr : Nat) * e.newt, e.newr, e.r - e.r / e.newr * e.newr⟩

/-- The loop "iterating `newr != 0`" (R101), at most `fuel` times. -/
def euclidLoop : Nat → Euclid → Euclid
  | 0, e => e
  | fuel + 1, e => if e.newr = 0 then e else euclidLoop fuel (euclidStep e)

/-- `inverse(a, p)` (R101, R103, R104). `newr` starts at `a` and falls in every iteration (R102 (b)), so `a` iterations always reach
its end. -/
def inverse (a p : Nat) : Except CmdError Nat :=
  let e := euclidLoop a (euclidInit a p)
  if 1 < e.r then .error .noInverse
  else .ok (if e.t < 0 then e.t + (p : Int) else e.t).toNat

/-- `INV` (R105): `SR[RD] <- inverse(SR[RK], CP)`. -/
def execInv (rd rk : SReg) (s : State) : Result :=
  command s s.regs.modulusOk (inverse (s.regs.scalar rk) s.regs.modulus) (fun t => s.regs.setScalar rd t)

end Sys2Proof.Machine
end

