-- ==== Sys2Proof/Machine/Curve.lean ====
section
/-! DEFINITION. CurvePoint and GroupLaw (spec/41_point_ops.md): equality, negation and addition of points, and `PEQ`, `PNEG`, `PADD`. -/

namespace Sys2Proof.Machine

/-- `peq(P, Q)` (R120): structural equality of the stored integers. -/
def peq : Point → Point → Bool
  | .inf, .inf => true
  | .aff x1 y1, .aff x2 y2 => decide (x1 = x2) && decide (y1 = y2)
  | .inf, .aff _ _ => false
  | .aff _ _, .inf => false

/-- `negate(P, p)` (R122). -/
def negate (P : Point) (p : Nat) : Point :=
  match P with
  | .inf => .inf
  | .aff x y => .aff x (modP ((p : Int) - y) p)

/-- The slope of a doubling, `((3*x1*x1 + a) * inverse((2*y1) mod p, p)) mod p` (R127). -/
def tangentSlope (x1 y1 a p : Nat) : Except CmdError Nat :=
  (inverse (2 * y1 % p) p).map (fun v => (3 * x1 * x1 + a) * v % p)

/-- The slope of a generic addition, `((y2 - y1) * inverse((x2 - x1) mod p, p)) mod p` (R128). -/
def chordSlope (x1 y1 x2 y2 p : Nat) : Except CmdError Nat :=
  (inverse (modP ((x2 : Int) - x1) p) p).map (fun (v : Nat) => modP (((y2 : Int) - y1) * v) p)

/-- The result of cases 3 and 4 from the slope `m` (R129). -/
def thirdPoint (x1 y1 x2 p m : Nat) : Point :=
  let x3 := modP ((m : Int) * m - x1 - x2) p
  .aff x3 (modP ((m : Int) * ((x1 : Int) - x3) - y1) p)

/-- `add(P, Q, a, p)` (R124): the first case whose condition holds decides (R125 to R128). -/
def add (P Q : Point) (a p : Nat) : Except CmdError Point :=
  match P, Q with
  | .inf, Q => .ok Q
  | .aff x1 y1, .inf => .ok (.aff x1 y1)
  | .aff x1 y1, .aff x2 y2 =>
    if x1 = x2 ∧ (y1 + y2) % p = 0 then .ok .inf
    else if x1 = x2 ∧ y1 = y2 then (tangentSlope x1 y1 a p).map (thirdPoint x1 y1 x2 p)
    else (chordSlope x1 y1 x2 y2 p).map (thirdPoint x1 y1 x2 p)

/-- `PEQ` (R121): `SR[RD] <- 1` if the two points are equal, else 0. It makes no range check and reads no curve parameter. -/
def execPeq (rd : SReg) (rs1 rs2 : PReg) (s : State) : Result :=
  complete s (s.regs.setScalar rd (if peq (s.regs.point rs1) (s.regs.point rs2) then 1 else 0))

/-- `PNEG` (R123): `PR[RD] <- negate(PR[RS1], CP)`. -/
def execPneg (rd rs1 : PReg) (s : State) : Result :=
  command s (s.regs.modulusOk && s.regs.pointOk rs1) (.ok (negate (s.regs.point rs1) s.regs.modulus))
    (fun P => s.regs.setPoint rd P)

/-- `PADD` (R131): `PR[RD] <- add(PR[RS1], PR[RS2], CA, CP)`. -/
def execPadd (rd rs1 rs2 : PReg) (s : State) : Result :=
  command s (s.regs.modulusOk && s.regs.pointOk rs1 && s.regs.pointOk rs2)
    (add (s.regs.point rs1) (s.regs.point rs2) s.regs.coeffA s.regs.modulus) (fun R => s.regs.setPoint rd R)

end Sys2Proof.Machine
end

