-- ==== Sys2Proof/Machine/Scalar.lean ====
section
/-! DEFINITION. ScalarMultiply (spec/42_scalar_mul.md): double-and-add from the least significant bit, and `PMUL`. -/

namespace Sys2Proof.Machine

/-- The loop of R150 on the accumulator `R`, the running doubled point and the remaining `k`, at most `fuel` times. The accumulation
comes before the doubling, and the last doubling is made although its value is never used (R152). -/
def multiplyLoop (a p : Nat) : Nat → Point → Point → Nat → Except CmdError Point
  | 0, R, _, _ => .ok R
  | fuel + 1, R, running, k =>
    if k = 0 then .ok R
    else
      (if k % 2 = 1 then add R running a p else .ok R).bind fun R' =>
        (add running running a p).bind fun running' => multiplyLoop a p fuel R' running' (k / 2)

/-- `multiply(P, k, a, p)` (R150). `k` is halved in every iteration, so `k` iterations always reach `k == 0`. -/
def multiply (P : Point) (k a p : Nat) : Except CmdError Point := multiplyLoop a p k .inf P k

/-- `PMUL` (R153): `PR[RD] <- multiply(PR[RS1], SR[RK], CA, CP)`. -/
def execPmul (rd rs1 : PReg) (rk : SReg) (s : State) : Result :=
  command s (s.regs.modulusOk && s.regs.pointOk rs1)
    (multiply (s.regs.point rs1) (s.regs.scalar rk) s.regs.coeffA s.regs.modulus) (fun R => s.regs.setPoint rd R)

end Sys2Proof.Machine
end

