-- ==== Sys2Proof/Machine/ElGamal.lean ====
section
/-! DEFINITION. ElGamalCurve (spec/44_elgamal.md): encryption and decryption of points, and `ENC`, `DEC`. -/

namespace Sys2Proof.Machine

/-- `encrypt(M, Q, G, a, p, k)` (R170): `C1 = k·G`, then the shared point `S = k·Q`, then `C2 = M + S`. -/
def encrypt (M Q G : Point) (a p k : Nat) : Except CmdError (Point × Point) :=
  (multiply G k a p).bind fun C1 =>
    (multiply Q k a p).bind fun S =>
      (add M S a p).map fun C2 => (C1, C2)

/-- `decrypt((C1, C2), d, a, p)` (R172): `S = d·C1`, then `M = C2 + negate(S)`. -/
def decrypt (C1 C2 : Point) (d a p : Nat) : Except CmdError Point :=
  (multiply C1 d a p).bind fun S => add C2 (negate S p) a p

/-- `ENC` (R171): `(PR[RD], PR[RD2]) <- encrypt(PR[RS1], PR[RS2], PR[RS3], CA, CP, SR[RK])`, both or neither (R196). -/
def execEnc (rd rd2 rs1 rs2 rs3 : PReg) (rk : SReg) (s : State) : Result :=
  if rd = rd2 then raise .illegalCommand s
  else
    command s (s.regs.modulusOk && s.regs.pointOk rs1 && s.regs.pointOk rs2 && s.regs.pointOk rs3)
      (encrypt (s.regs.point rs1) (s.regs.point rs2) (s.regs.point rs3) s.regs.coeffA s.regs.modulus (s.regs.scalar rk))
      (fun C => (s.regs.setPoint rd C.1).setPoint rd2 C.2)

/-- `DEC` (R173): `PR[RD] <- decrypt((PR[RS1], PR[RS2]), SR[RK], CA, CP)`. -/
def execDec (rd rs1 rs2 : PReg) (rk : SReg) (s : State) : Result :=
  command s (s.regs.modulusOk && s.regs.pointOk rs1 && s.regs.pointOk rs2)
    (decrypt (s.regs.point rs1) (s.regs.point rs2) (s.regs.scalar rk) s.regs.coeffA s.regs.modulus)
    (fun M => s.regs.setPoint rd M)

end Sys2Proof.Machine
end

