-- ==== Sys2Proof/Machine/Dispatch.lean ====
section
/-! DEFINITION. The dispatch of a decoded command to its meaning (spec/30_encoding.md R74), one arm per constructor of `Instr`. -/

namespace Sys2Proof.Machine

/-- The meaning of a decoded command, from the range check of R84 on. -/
def exec (i : Instr) (s : State) : Host.Outcome State Fault Refusal :=
  match i with
  | .inv rd rk => Sys2Proof.Machine.execInv rd rk s
  | .padd rd rs1 rs2 => Sys2Proof.Machine.execPadd rd rs1 rs2 s
  | .pneg rd rs1 => Sys2Proof.Machine.execPneg rd rs1 s
  | .pmul rd rs1 rk => Sys2Proof.Machine.execPmul rd rs1 rk s
  | .peq rd rs1 rs2 => Sys2Proof.Machine.execPeq rd rs1 rs2 s
  | .encode rd rk => Sys2Proof.Machine.execEncode rd rk s
  | .enc rd rd2 rs1 rs2 rs3 rk => Sys2Proof.Machine.execEnc rd rd2 rs1 rs2 rs3 rk s
  | .dec rd rs1 rs2 rk => Sys2Proof.Machine.execDec rd rs1 rs2 rk s

end Sys2Proof.Machine
end

