-- ==== Sys2Proof/Machine/Port.lean ====
section
/-! DEFINITION. The register port (spec/20_memory.md R50 to R54) and the reset input (spec/70_reset_and_hazards.md R220, R221): what
one accepted input does. A write of `CMD` carries the whole execution of one command inside its step (spec/10_state.md R20). -/

namespace Sys2Proof.Machine

/-- `CMD <- w`, the first line of R84. -/
def State.setCmd (s : State) (w : CmdWord) : State := { s with regs := { s.regs with cmd := w } }

/-- `execute(w)` (R84): store the word, decode it, raise `IllegalCommand` if it is no command, else run the command. -/
def executeWord (w : CmdWord) (s : State) : Result :=
  match decode w with
  | .error _ => raise .illegalCommand (s.setCmd w)
  | .ok i => exec i (s.setCmd w)

/-- `HostRead(idx)` (R51): the port answers the register's value and no architectural state changes. -/
def hostRead (idx : BitVec 6) (s : State) : Result :=
  .next { s with replies := s.replies ++ [s.regs.read s.cfg.DW (regAt idx)] }

/-- `HostWrite(idx, v)` (R52): store the value; only a write of `CMD` has an effect beyond that. -/
def hostWrite (s : State) (idx : BitVec 6) (v : BitVec s.cfg.DW) : Result :=
  match regAt idx with
  | .cmd => executeWord (v.setWidth 32) s
  | n => .next { s with regs := s.regs.write n v }

/-- Reset (R220, R35): every architectural register takes its reset value, whatever it held. -/
def resetStep (s : State) : Result := .next { s with regs := Regs.reset }

/-- One accepted input, run to its end before the next (R53, R54). -/
def accept (s : State) : Input s.cfg.DW → Result
  | .read idx => hostRead idx s
  | .write idx v => hostWrite s idx v
  | .reset => resetStep s

end Sys2Proof.Machine
end

