-- ==== Sys2Proof/Machine/Step.lean ====
section
/-! DEFINITION. One step of the machine: the oldest pending input is accepted and run to its end (spec/10_state.md R20,
spec/20_memory.md R53, R54). With no input the engine is idle and keeps all architectural state (spec/60_exceptions.md R207). -/

namespace Sys2Proof.Machine

/-- One step (R20, R53, R54, R207). -/
def step (s : State) : Host.Outcome State Fault Refusal :=
  match s.pending with
  | [] => .next s
  | i :: rest => accept { s with pending := rest } i

/-- The state in which the very next step writes a command word to `CMD` (index `0x00`, R24, R30): the engine has no program counter
and fetches nothing (R22), so the host's write of `CMD` is how a command comes to run. Bits at and above `nbits` are zero. -/
def State.withFetchWord (s : State) (nbits w : Nat) : State :=
  { s with pending := .write 0 (BitVec.ofNat s.cfg.DW (w % 2 ^ nbits)) :: s.pending }

end Sys2Proof.Machine
end

