-- ==== Sys2Proof/Safety.lean ====
section
/-! DEFINITION. The terms the statements use: what a command leaves unchanged, the range conditions of spec/60_exceptions.md R193 in the
spec's own numbers, when an addition has its inverse (spec/41_point_ops.md R130), the caller's preconditions
(spec/70_reset_and_hazards.md R224), and the invariant that ties `STATUS.ERR` to the word in `CMD` (R190). -/

namespace Sys2Proof.Machine

section
variable {W : Nat}

/-- Nothing but `STATUS.ERR` and the scalar registers in `D` differs. -/
def SameButScalars (D : List SReg) (r r' : Regs W) : Prop :=
  r'.cmd = r.cmd ∧ r'.ca = r.ca ∧ r'.cb = r.cb ∧ r'.cp = r.cp ∧ r'.pr = r.pr ∧ ∀ j, j ∉ D → r'.sr[j] = r.sr[j]

/-- Nothing but `STATUS.ERR` and the point registers in `D` differs. -/
def SameButPoints (D : List PReg) (r r' : Regs W) : Prop :=
  r'.cmd = r.cmd ∧ r'.ca = r.ca ∧ r'.cb = r.cb ∧ r'.cp = r.cp ∧ r'.sr = r.sr ∧ ∀ j, j ∉ D → r'.pr[j] = r.pr[j]

/-- A point register that R193 (b) turns away: it holds `Aff(x, y)` with `x >= CP` or `y >= CP`. -/
def OutOfRange (r : Regs W) (i : PReg) : Prop :=
  r.pr[i].inf = false ∧ (r.cp.toNat ≤ r.pr[i].x.toNat ∨ r.cp.toNat ≤ r.pr[i].y.toNat)

/-- The whole of `OperandRange` (R193 (a) to (c)), command by command. -/
def RangeFails (r : Regs W) : Instr → Prop
  | .inv _ _ => r.cp.toNat < 2
  | .padd _ rs1 rs2 => r.cp.toNat < 2 ∨ OutOfRange r rs1 ∨ OutOfRange r rs2
  | .pneg _ rs1 => r.cp.toNat < 2 ∨ OutOfRange r rs1
  | .pmul _ rs1 _ => r.cp.toNat < 2 ∨ OutOfRange r rs1
  | .peq _ _ _ => False
  | .encode _ rk => r.cp.toNat < 2 ∨ 2 ^ W ≤ 10 * r.sr[rk].toNat + 9
  | .enc _ _ rs1 rs2 rs3 _ => r.cp.toNat < 2 ∨ OutOfRange r rs1 ∨ OutOfRange r rs2 ∨ OutOfRange r rs3
  | .dec _ rs1 rs2 _ => r.cp.toNat < 2 ∨ OutOfRange r rs1 ∨ OutOfRange r rs2

/-- The stored form of a point value as a command leaves it (R28): `Inf` is `1/0/0`, `Aff(x, y)` is `0/x/y`. -/
def Holds (q : PointReg W) : Point → Prop
  | .inf => q.inf = true ∧ q.x = 0 ∧ q.y = 0
  | .aff x y => q.inf = false ∧ q.x.toNat = x ∧ q.y.toNat = y

/-- What a read of index `n` answers (R51 over the map of R30), index by index. -/
def PortValue (r : Regs W) (n v : Nat) : Prop :=
  (n = 0x00 → v = r.cmd.toNat) ∧
  (n = 0x01 → v = r.err.toNat) ∧
  (n = 0x02 → v = r.ca.toNat) ∧
  (n = 0x03 → v = r.cb.toNat) ∧
  (n = 0x04 → v = r.cp.toNat) ∧
  (0x05 ≤ n ∧ n ≤ 0x07 → v = 0) ∧
  (∀ i : SReg, n = 0x08 + i.val → v = r.sr[i].toNat) ∧
  (∀ i : PReg, n = 0x10 + 4 * i.val → v = if r.pr[i].inf then 1 else 0) ∧
  (∀ i : PReg, n = 0x11 + 4 * i.val → v = r.pr[i].x.toNat) ∧
  (∀ i : PReg, n = 0x12 + 4 * i.val → v = r.pr[i].y.toNat) ∧
  (∀ i : PReg, n = 0x13 + 4 * i.val → v = 0) ∧
  (0x30 ≤ n → v = 0)

/-- What a write of the word `v` to index `n`, other than `CMD`, leaves (R52 over the map of R30), index by index. -/
def PortStores (r r' : Regs W) (n v : Nat) : Prop :=
  (n = 0x01 → r' = r) ∧
  (n = 0x02 → r' = { r with ca := BitVec.ofNat W v }) ∧
  (n = 0x03 → r' = { r with cb := BitVec.ofNat W v }) ∧
  (n = 0x04 → r' = { r with cp := BitVec.ofNat W v }) ∧
  (0x05 ≤ n ∧ n ≤ 0x07 → r' = r) ∧
  (∀ i : SReg, n = 0x08 + i.val → r' = { r with sr := r.sr.set i (BitVec.ofNat W v) }) ∧
  (∀ i : PReg, n = 0x10 + 4 * i.val → r' = { r with pr := r.pr.set i { r.pr[i] with inf := decide (v % 2 = 1) } }) ∧
  (∀ i : PReg, n = 0x11 + 4 * i.val → r' = { r with pr := r.pr.set i { r.pr[i] with x := BitVec.ofNat W v } }) ∧
  (∀ i : PReg, n = 0x12 + 4 * i.val → r' = { r with pr := r.pr.set i { r.pr[i] with y := BitVec.ofNat W v } }) ∧
  (∀ i : PReg, n = 0x13 + 4 * i.val → r' = r) ∧
  (0x30 ≤ n → r' = r)

/-- The same registers but for the `X` and `Y` fields of point registers whose `INF` is 1 (R28, R29). -/
def SameUpToInf (r r' : Regs W) : Prop :=
  r'.cmd = r.cmd ∧ r'.err = r.err ∧ r'.ca = r.ca ∧ r'.cb = r.cb ∧ r'.cp = r.cp ∧ r'.sr = r.sr ∧
    ∀ j : PReg, r'.pr[j].inf = r.pr[j].inf ∧ (r.pr[j].inf = false → r'.pr[j] = r.pr[j])

end

/-- The reserved indices of R30. -/
def ReservedIndex (n : Nat) : Prop := (0x05 ≤ n ∧ n ≤ 0x07) ∨ (0x10 ≤ n ∧ n < 0x30 ∧ n % 4 = 3) ∨ 0x30 ≤ n

/-- The number in bits `[lo + 2 : lo]` of a word (R12), a register field of format `C` (R71). -/
def field3 (w lo : Nat) : Nat := w / 2 ^ lo % 8

/-- The number in bits `[31:24]` of a word, its opcode (R71). -/
def opcode (w : Nat) : Nat := w / 2 ^ 24 % 256

/-- `Z`, or a field that R73 leaves unused by the command of the word's opcode, is not zero (R76). -/
def UnusedFieldNonzero (w : Nat) : Prop :=
  w % 64 ≠ 0 ∨
  (opcode w = 1 ∧ (field3 w 18 ≠ 0 ∨ field3 w 15 ≠ 0 ∨ field3 w 12 ≠ 0 ∨ field3 w 9 ≠ 0)) ∨
  (opcode w = 2 ∧ (field3 w 18 ≠ 0 ∨ field3 w 9 ≠ 0 ∨ field3 w 6 ≠ 0)) ∨
  (opcode w = 3 ∧ (field3 w 18 ≠ 0 ∨ field3 w 12 ≠ 0 ∨ field3 w 9 ≠ 0 ∨ field3 w 6 ≠ 0)) ∨
  (opcode w = 4 ∧ (field3 w 18 ≠ 0 ∨ field3 w 12 ≠ 0 ∨ field3 w 9 ≠ 0)) ∨
  (opcode w = 5 ∧ (field3 w 18 ≠ 0 ∨ field3 w 9 ≠ 0 ∨ field3 w 6 ≠ 0)) ∨
  (opcode w = 6 ∧ (field3 w 18 ≠ 0 ∨ field3 w 15 ≠ 0 ∨ field3 w 12 ≠ 0 ∨ field3 w 9 ≠ 0)) ∨
  (opcode w = 8 ∧ (field3 w 18 ≠ 0 ∨ field3 w 9 ≠ 0))

/-- The point registers a command reads, for the commands that compute with points modulo `CP` (R73). -/
def pointSources : Instr → List PReg
  | .inv _ _ => []
  | .padd _ rs1 rs2 => [rs1, rs2]
  | .pneg _ rs1 => [rs1]
  | .pmul _ rs1 _ => [rs1]
  | .peq _ _ _ => []
  | .encode _ _ => []
  | .enc _ _ rs1 rs2 rs3 _ => [rs1, rs2, rs3]
  | .dec _ rs1 rs2 _ => [rs1, rs2]

/-- The point registers those commands write (R73). -/
def pointDestinations : Instr → List PReg
  | .inv _ _ => []
  | .padd rd _ _ => [rd]
  | .pneg rd _ => [rd]
  | .pmul rd _ _ => [rd]
  | .peq _ _ _ => []
  | .encode rd _ => [rd]
  | .enc rd rd2 _ _ _ _ => [rd, rd2]
  | .dec rd _ _ _ => [rd]

/-- `y` is a root for `x`: `(y*y) mod p` is `(x^3 + a*x + b) mod p`, `y` in `[0, p)` (R160). -/
def IsRoot (a b p x y : Nat) : Prop := y < p ∧ y * y % p = (x * x * x + a * x + b) % p

/-- `(x, y)` is the first point of R160's search: the smallest `x` of the window with a root, and its smallest root (R161). -/
def FirstPoint (m a b p x y : Nat) : Prop :=
  10 * m ≤ x ∧ x ≤ 10 * m + 9 ∧ IsRoot a b p x y ∧
    (∀ x' y', 10 * m ≤ x' → x' < x → ¬ IsRoot a b p x' y') ∧ (∀ y', y' < y → ¬ IsRoot a b p x y')

/-- `add(P, Q)` finds the inverse it needs, or needs none (R125 to R128, R130). -/
def AddDefined (p : Nat) : Point → Point → Prop
  | .inf, _ => True
  | .aff _ _, .inf => True
  | .aff x1 y1, .aff x2 y2 =>
    (x1 = x2 ∧ (y1 + y2) % p = 0) ∨
    (x1 = x2 ∧ y1 = y2 ∧ Nat.gcd (2 * y1 % p) p = 1) ∨
    (¬ (x1 = x2 ∧ y1 = y2) ∧ Int.gcd ((x2 : Int) - x1) p = 1)

/-- A point of the curve `y^2 = x^3 + a*x + b (mod p)` with coordinates in `[0, p)`, or `Inf` (R15, R224 (c)). -/
def OnCurve (a b p : Nat) : Point → Prop
  | .inf => True
  | .aff x y => x < p ∧ y < p ∧ y * y % p = (x * x * x + a * x + b) % p

/-- The curve is non-singular, `4a^3 + 27b^2 != 0 (mod p)`, over a prime field of odd characteristic (R224 (a), (b)). The spec makes
no group-law claim for `p = 2` (spec/91_not_in_source.md N23), where this test does not detect a singular curve. -/
def GoodCurve (a b p : Nat) : Prop := p.Prime ∧ p ≠ 2 ∧ (4 * a ^ 3 + 27 * b ^ 2) % p ≠ 0

/-- `n` doublings in a row, the `running` point of R150 after `n` iterations. -/
def doubleTimes (a p : Nat) : Nat → Point → Except CmdError Point
  | 0, P => .ok P
  | n + 1, P => (add P P a p).bind (doubleTimes a p n)

/-- The commands R190 lists as raising `NoInverse`. -/
def mayRaiseNoInverse : Instr → Bool
  | .inv _ _ => true
  | .padd _ _ _ => true
  | .pneg _ _ => false
  | .pmul _ _ _ => true
  | .peq _ _ _ => false
  | .encode _ _ => false
  | .enc _ _ _ _ _ _ => true
  | .dec _ _ _ _ => true

/-- The command R190 lists as raising `EncodingFailure`. -/
def mayRaiseEncodingFailure : Instr → Bool
  | .inv _ _ => false
  | .padd _ _ _ => false
  | .pneg _ _ => false
  | .pmul _ _ _ => false
  | .peq _ _ _ => false
  | .encode _ _ => true
  | .enc _ _ _ _ _ _ => false
  | .dec _ _ _ _ => false

/-- The commands R190 lists as raising `OperandRange`: every command but `PEQ`. -/
def mayRaiseOperandRange : Instr → Bool
  | .inv _ _ => true
  | .padd _ _ _ => true
  | .pneg _ _ => true
  | .pmul _ _ _ => true
  | .peq _ _ _ => false
  | .encode _ _ => true
  | .enc _ _ _ _ _ _ => true
  | .dec _ _ _ _ => true

/-- The codes R190 lets the word in `CMD` leave in `STATUS.ERR`. -/
def CodeFits (cmd : CmdWord) (err : BitVec 4) : Prop :=
  match decode cmd with
  | .error _ => err = 3
  | .ok i =>
    err = 0 ∨ (err = 1 ∧ mayRaiseNoInverse i = true) ∨ (err = 2 ∧ mayRaiseEncodingFailure i = true) ∨
      (err = 4 ∧ mayRaiseOperandRange i = true)

/-- The invariant: no command has run since reset (`CMD = 0`, `ERR = 0`, R222), or `ERR` is a code that R190 gives the word in `CMD`. -/
def ErrMatchesCmd (s : State) : Prop := (s.regs.cmd = 0 ∧ s.regs.err = 0) ∨ CodeFits s.regs.cmd s.regs.err

/-- The state after the host has written an illegal word to `CMD` and `rest` is still to come (R78, R84): the word is stored, `ERR` is
`IllegalCommand`, and nothing else has changed. -/
def State.afterIllegal (s : State) (w : CmdWord) (rest : List (Input s.cfg.DW)) : State :=
  { s with pending := rest, regs := { s.regs with cmd := w, err := 3 } }

/-- The state in which the command in a `CMD` write runs: the input is taken and the word is stored (R84). -/
def State.withCommand (s : State) (w : CmdWord) (rest : List (Input s.cfg.DW)) : State :=
  { s with pending := rest, regs := { s.regs with cmd := w } }

end Sys2Proof.Machine
end

