-- ==== Sys2Proof/Certificates/Slice0/Obligations.lean ====
section
/-! DEFINITION. The statements for the provers. Each says which rule of the spec it comes from; `s.regs` are the architectural
registers of R21, and `{ s with regs := r' }` is a state that differs from `s` in registers only. -/

open Sys2Proof Sys2Proof.Machine

/-! ### The command word (spec/30_encoding.md) -/

/-- R71, R73, R74, R80: decoding the word of a well-formed command gives that command, with every operand at every value. -/
def Obligations.DecodeOfEncodeIsTheCommand : Prop :=
  ∀ i : Instr, WellFormed i → decode (encode i) = .ok i

/-- R71, R76, R80: a word that decodes is the one encoding of what it decodes to. -/
def Obligations.LegalWordIsTheEncodingOfItsCommand : Prop :=
  ∀ (w : CmdWord) (i : Instr), decode w = .ok i → WellFormed i ∧ encode i = w

/-- R81 and the programs of spec/95_test_vectors.md: words written out in the spec decode to the commands they stand for. -/
def Obligations.WordsOfTheSpecDecode : Prop :=
  decode 0x01200000 = .ok (.inv 1 0) ∧ decode 0x02401000 = .ok (.padd 2 0 1) ∧ decode 0x03800000 = .ok (.pneg 4 0) ∧
  decode 0x04200000 = .ok (.pmul 1 0 0) ∧ decode 0x0562A000 = .ok (.peq 3 5 2) ∧ decode 0x06400080 = .ok (.encode 2 2) ∧
  decode 0x07711040 = .ok (.enc 3 4 2 1 0 1) ∧ decode 0x08A1C000 = .ok (.dec 5 3 4 0)

/-- R75: a host write of `CMD` whose word has a reserved opcode (`0x00`, `0x09..0xFF`; the all-zero word is one) raises
`IllegalCommand`: the word is stored, `ERR = 3`, nothing else changes. -/
def Obligations.ReservedOpcodeRaisesIllegalCommand : Prop :=
  ∀ (s : State) (v : BitVec s.cfg.DW) (rest : List (Input s.cfg.DW)), s.pending = .write 0 v :: rest →
    opcode v.toNat = 0 ∨ 8 < opcode v.toNat → step s = .next (s.afterIllegal (BitVec.ofNat 32 v.toNat) rest)

/-- R76: a non-zero `Z`, or a non-zero field that the command does not use, raises `IllegalCommand` (the word is stored, `ERR = 3`, nothing
else changes); so a command has exactly one encoding. -/
def Obligations.NonzeroUnusedFieldRaisesIllegalCommand : Prop :=
  (∀ (s : State) (v : BitVec s.cfg.DW) (rest : List (Input s.cfg.DW)), s.pending = .write 0 v :: rest →
    UnusedFieldNonzero v.toNat → step s = .next (s.afterIllegal (BitVec.ofNat 32 v.toNat) rest)) ∧
  ∀ (w w' : CmdWord) (i : Instr), decode w = .ok i → decode w' = .ok i → w = w'

/-- R77: a host write of `CMD` whose word is an `ENC` word with `RD == RD2` raises `IllegalCommand`: the word is stored, `ERR = 3`, nothing
else changes. -/
def Obligations.EncWithOneDestinationRaisesIllegalCommand : Prop :=
  ∀ (s : State) (v : BitVec s.cfg.DW) (rest : List (Input s.cfg.DW)), s.pending = .write 0 v :: rest →
    opcode v.toNat = 7 → field3 v.toNat 21 = field3 v.toNat 18 →
    step s = .next (s.afterIllegal (BitVec.ofNat 32 v.toNat) rest)

/-- R78: every 32-bit word is a legal command, which a write of it runs, or raises `IllegalCommand`, is stored in `CMD`, and changes
nothing else but `ERR`. -/
def Obligations.EveryWordIsACommandOrIllegal : Prop :=
  ∀ w : CmdWord,
    (∃ i, WellFormed i ∧ encode i = w ∧
      ∀ (s : State) (v : BitVec s.cfg.DW) (rest : List (Input s.cfg.DW)), s.pending = .write 0 v :: rest →
        BitVec.ofNat 32 v.toNat = w → step s = exec i (s.withCommand w rest)) ∨
    ((∀ i, WellFormed i → encode i ≠ w) ∧
      ∀ (s : State) (v : BitVec s.cfg.DW) (rest : List (Input s.cfg.DW)), s.pending = .write 0 v :: rest →
        BitVec.ofNat 32 v.toNat = w → step s = .next (s.afterIllegal w rest))

/-! ### The register port and reset (spec/10_state.md, spec/20_memory.md, spec/70_reset_and_hazards.md) -/

/-- R52, R84: when the oldest input is a write of `CMD` whose low 32 bits decode to `i`, the step stores the word and runs `i`. -/
def Obligations.StepRunsTheDecodedCommand : Prop :=
  ∀ (s : State) (v : BitVec s.cfg.DW) (rest : List (Input s.cfg.DW)) (i : Instr), s.pending = .write 0 v :: rest →
    decode (BitVec.ofNat 32 v.toNat) = .ok i → step s = exec i (s.withCommand (BitVec.ofNat 32 v.toNat) rest)

/-- R51: a read answers the register's value zero-extended to `DW` bits, 0 at a reserved index, and changes no register. -/
def Obligations.ReadAnswersTheRegister : Prop :=
  ∀ (s : State) (idx : BitVec 6) (rest : List (Input s.cfg.DW)), s.pending = .read idx :: rest →
    ∃ v : BitVec s.cfg.DW, step s = .next { s with pending := rest, replies := s.replies ++ [v] } ∧
      PortValue s.regs idx.toNat v.toNat

/-- R52: a write stores the low bits of the word in the register it names, is ignored at `STATUS` and the reserved indices, and only a
write of `CMD` does more: it executes the word. -/
def Obligations.WriteStoresTheLowBits : Prop :=
  ∀ (s : State) (idx : BitVec 6) (v : BitVec s.cfg.DW) (rest : List (Input s.cfg.DW)), s.pending = .write idx v :: rest →
    (idx.toNat = 0 → step s = executeWord (BitVec.ofNat 32 v.toNat) { s with pending := rest }) ∧
    (idx.toNat ≠ 0 → ∃ r' : Regs s.cfg.W, step s = .next { s with pending := rest, regs := r' } ∧
      PortStores s.regs r' idx.toNat v.toNat)

/-- R31: a reserved index reads as 0, ignores a write, and neither has any other effect. -/
def Obligations.ReservedIndexHoldsNoState : Prop :=
  ∀ (s : State) (idx : BitVec 6) (rest : List (Input s.cfg.DW)), ReservedIndex idx.toNat →
    (s.pending = .read idx :: rest → step s = .next { s with pending := rest, replies := s.replies ++ [0] }) ∧
    (∀ v : BitVec s.cfg.DW, s.pending = .write idx v :: rest → step s = .next { s with pending := rest })

/-- R54, R55: a read right after a write of the same index (`CMD` apart) answers the low bits written (the old value at an index that ignores the
write), and a read of another index is not affected by the write. -/
def Obligations.ReadAfterWrite : Prop :=
  ∀ (s : State) (idx idx' : BitVec 6) (v : BitVec s.cfg.DW) (rest : List (Input s.cfg.DW)), idx.toNat ≠ 0 →
    s.pending = .write idx v :: .read idx' :: rest →
    ∃ (t u : State) (x : Nat), step s = .next t ∧ step t = .next u ∧
      u.replies.map BitVec.toNat = s.replies.map BitVec.toNat ++ [x] ∧
      (idx' ≠ idx → PortValue s.regs idx'.toNat x) ∧
      (idx' = idx →
        ((2 ≤ idx.toNat ∧ idx.toNat ≤ 4) ∨ (8 ≤ idx.toNat ∧ idx.toNat < 16) ∨
          (16 ≤ idx.toNat ∧ idx.toNat < 48 ∧ (idx.toNat % 4 = 1 ∨ idx.toNat % 4 = 2)) → x = v.toNat % 2 ^ s.cfg.W) ∧
        (16 ≤ idx.toNat ∧ idx.toNat < 48 ∧ idx.toNat % 4 = 0 → x = v.toNat % 2) ∧
        (idx.toNat = 1 ∨ ReservedIndex idx.toNat → PortValue s.regs idx.toNat x))

/-- R35, R220: the reset input puts every architectural register at its reset value, whatever it held. -/
def Obligations.ResetInputRestoresEveryRegister : Prop :=
  ∀ (s : State) (rest : List (Input s.cfg.DW)), s.pending = .reset :: rest →
    ∃ r' : Regs s.cfg.W, step s = .next { s with pending := rest, regs := r' } ∧
      r'.cmd = 0 ∧ r'.err = 0 ∧ r'.ca = 0 ∧ r'.cb = 0 ∧ r'.cp = 0 ∧ (∀ i : SReg, r'.sr[i] = 0) ∧
      ∀ i : PReg, r'.pr[i].inf = true ∧ r'.pr[i].x = 0 ∧ r'.pr[i].y = 0

/-- R35: the registers right after reset, at every width. That `State.reset` itself is 32 bits wide is the model's choice
(notes/assumptions/1.md), and so are its two empty lists (notes/assumptions/2.md). -/
def Obligations.ResetStateHoldsTheResetValues : Prop :=
  State.reset = State.resetOf State.reset.cfg ∧ State.reset.cfg.W = 32 ∧
  ∀ c : Config, (State.resetOf c).cfg = c ∧ (State.resetOf c).pending = [] ∧ (State.resetOf c).replies = [] ∧
    (State.resetOf c).regs.cmd = 0 ∧ (State.resetOf c).regs.err = 0 ∧ (State.resetOf c).regs.ca = 0 ∧
    (State.resetOf c).regs.cb = 0 ∧ (State.resetOf c).regs.cp = 0 ∧
    (∀ i : SReg, (State.resetOf c).regs.sr[i] = 0) ∧
    ∀ i : PReg, (State.resetOf c).regs.pr[i].inf = true ∧ (State.resetOf c).regs.pr[i].x = 0 ∧
      (State.resetOf c).regs.pr[i].y = 0

/-- R222: after reset `ERR = 0` and `CP = 0`, and while `CP < 2` every legal command other than `PEQ` raises `OperandRange`: `ERR = 4`
and no other change. -/
def Obligations.UnconfiguredEngineRefusesToCompute : Prop :=
  (∀ c : Config, (State.resetOf c).regs.err = 0 ∧ (State.resetOf c).regs.cp = 0) ∧
  ∀ (s : State) (i : Instr), WellFormed i → (∀ rd rs1 rs2, i ≠ .peq rd rs1 rs2) → s.regs.cp.toNat < 2 →
    exec i s = .next { s with regs := { s.regs with err := 4 } }

/-- R51, R53, R54, R207, R230: a step always answers a next state: it takes exactly the oldest input and keeps the rest in order, a read
adds its one word to the replies and nothing else touches them, the width never changes, and without input nothing changes at all. The
two lists, and with them what is said of `pending` and `replies`, are the model's choice (notes/assumptions/2.md). -/
def Obligations.StepAlwaysAnswersAndTakesOneInput : Prop :=
  ∀ s : State, ∃ (r' : Regs s.cfg.W) (l : List (BitVec s.cfg.DW)),
    step s = .next { s with regs := r', pending := s.pending.tail, replies := l } ∧
    (∀ idx rest, s.pending = .read idx :: rest → ∃ v, l = s.replies ++ [v]) ∧
    ((∀ idx rest, s.pending ≠ .read idx :: rest) → l = s.replies) ∧
    (s.pending = [] → r' = s.regs)

/-- R23, R197: `ERR` and `CMD` change only by a write of `CMD` or by reset. -/
def Obligations.OnlyCmdWritesAndResetChangeErr : Prop :=
  ∀ s t : State, step s = .next t → (∀ v rest, s.pending ≠ .write 0 v :: rest) → (∀ rest, s.pending ≠ .reset :: rest) →
    t.regs.err = s.regs.err ∧ t.regs.cmd = s.regs.cmd

/-- R25, R190, R197: every step keeps the invariant that `ERR` is a code R190 gives the word in `CMD` (so never 5 to 15), or nothing
has run since reset. -/
def Obligations.ErrMatchesCmdIsKept : Prop :=
  ∀ s t : State, ErrMatchesCmd s → step s = .next t → ErrMatchesCmd t

/-- R222: the invariant holds after reset, at every width. -/
def Obligations.ErrMatchesCmdAfterReset : Prop :=
  ErrMatchesCmd State.reset ∧ ∀ c : Config, ErrMatchesCmd (State.resetOf c)

/-! ### What holds of every command (spec/10_state.md, spec/60_exceptions.md) -/

/-- R24, R26: no command, whatever its outcome, writes `CMD`, `CA`, `CB` or `CP`. -/
def Obligations.NoCommandWritesItsParameters : Prop :=
  ∀ (i : Instr) (s : State), ∃ r' : Regs s.cfg.W, exec i s = .next { s with regs := r' } ∧
    r'.cmd = s.regs.cmd ∧ r'.ca = s.regs.ca ∧ r'.cb = s.regs.cb ∧ r'.cp = s.regs.cp

/-- R196: a command is all or nothing: when it ends with an error code, that code is the only thing that changed. -/
def Obligations.CommandIsAllOrNothing : Prop :=
  ∀ (i : Instr) (s : State), ∃ r' : Regs s.cfg.W, exec i s = .next { s with regs := r' } ∧
    (r'.err ≠ 0 → r' = { s.regs with err := r'.err })

/-- R23: no command reads `STATUS.ERR`: its outcome is the same from every earlier code. -/
def Obligations.NoCommandReadsErr : Prop :=
  ∀ (i : Instr) (s : State) (e : BitVec 4), exec i { s with regs := { s.regs with err := e } } = exec i s

/-- R26: `CB` is read by `ENCODE` only. -/
def Obligations.OnlyEncodeReadsCB : Prop :=
  ∀ (i : Instr) (s : State) (v : Word s.cfg.W), (∀ rd rk, i ≠ .encode rd rk) →
    ∃ r' : Regs s.cfg.W, exec i s = .next { s with regs := r' } ∧
      exec i { s with regs := { s.regs with cb := v } } = .next { s with regs := { r' with cb := v } }

/-- R26: `CA` and `CB` matter only modulo `CP`. -/
def Obligations.CoefficientsMatterOnlyModuloP : Prop :=
  ∀ (i : Instr) (s : State) (a' b' : Word s.cfg.W),
    a'.toNat % s.regs.cp.toNat = s.regs.ca.toNat % s.regs.cp.toNat →
    b'.toNat % s.regs.cp.toNat = s.regs.cb.toNat % s.regs.cp.toNat →
    ∃ r' : Regs s.cfg.W, exec i s = .next { s with regs := r' } ∧
      exec i { s with regs := { s.regs with ca := a', cb := b' } } = .next { s with regs := { r' with ca := a', cb := b' } }

/-- R28, R29: every command ignores the `X` and `Y` fields of a register whose `INF` is 1. -/
def Obligations.CoordinatesOfInfAreIgnored : Prop :=
  ∀ (i : Instr) (s : State) (q : Regs s.cfg.W), SameUpToInf s.regs q →
    ∃ r' q' : Regs s.cfg.W, exec i s = .next { s with regs := r' } ∧
      exec i { s with regs := q } = .next { s with regs := q' } ∧ SameUpToInf r' q'

/-- R193, R195: a legal command raises `OperandRange` (`ERR = 4` and no other change) exactly under the conditions (a) to (c) of R193. -/
def Obligations.OperandRangeIsRaisedExactly : Prop :=
  ∀ (i : Instr) (s : State), WellFormed i →
    (exec i s = .next { s with regs := { s.regs with err := 4 } } ↔ RangeFails s.regs i)

/-! ### The modular inverse and `INV` (spec/40_field_inverse.md) -/

/-- R100: `inverse(a, p)` is the unique `t` in `[0, p)` with `(a*t) mod p == 1` when `gcd(a, p) == 1`, and raises `NoInverse` when
`gcd(a, p) > 1`. -/
def Obligations.InverseMeetsItsContract : Prop :=
  ∀ a p : Nat, 2 ≤ p →
    (Nat.gcd a p = 1 → ∃ t, inverse a p = .ok t ∧ t < p ∧ a * t % p = 1 ∧ ∀ u, u < p → a * u % p = 1 → u = t) ∧
    (1 < Nat.gcd a p → inverse a p = .error .noInverse)

/-- R101, R102 (c), (d), (e), R106: after any number of iterations the remainders are the coefficients times `a` modulo `p`, their gcd is
that of the operands, and the coefficients are at most `p` in magnitude. The start `t = 0, newt = 1, r = p, newr = a` and the bounds are
what the spec marks as general knowledge, not as its source's; the start is the choice of notes/assumptions/8.md. -/
def Obligations.EuclidKeepsItsInvariants : Prop :=
  ∀ a p n : Nat, 2 ≤ p →
    let e := euclidLoop n (euclidInit a p)
    (e.r : Int) ≡ e.t * a [ZMOD p] ∧ (e.newr : Int) ≡ e.newt * a [ZMOD p] ∧ Nat.gcd e.r e.newr = Nat.gcd p a ∧
      |e.t| ≤ p ∧ |e.newt| ≤ p

/-- R102 (b), R230: the loop of `inverse` has ended after `2*bitlen(p) + 1` iterations, after `2*bitlen(p)` for `a < p`, with the same
result, so no operand makes it run on. -/
def Obligations.EuclidEndsWithinItsBound : Prop :=
  ∀ a p : Nat, 2 ≤ p →
    (euclidLoop (2 * bitlen p + 1) (euclidInit a p)).newr = 0 ∧
    euclidLoop (2 * bitlen p + 1) (euclidInit a p) = euclidLoop a (euclidInit a p) ∧
    (a < p → (euclidLoop (2 * bitlen p) (euclidInit a p)).newr = 0)

/-- R105, range of `a`: the result for `a` equals the result for `a mod p`, errors included. -/
def Obligations.InverseDependsOnTheResidueOnly : Prop :=
  ∀ a p : Nat, 2 ≤ p → inverse (a % p) p = inverse a p

/-- R105: `INV` with `CP >= 2` and an operand coprime to `CP` completes and writes the inverse, and only that. -/
def Obligations.InvWritesTheInverse : Prop :=
  ∀ (s : State) (rd rk : SReg), 2 ≤ s.regs.cp.toNat → Nat.gcd s.regs.sr[rk].toNat s.regs.cp.toNat = 1 →
    ∃ r' : Regs s.cfg.W, exec (.inv rd rk) s = .next { s with regs := r' } ∧ r'.err = 0 ∧
      r'.sr[rd].toNat < s.regs.cp.toNat ∧ s.regs.sr[rk].toNat * r'.sr[rd].toNat % s.regs.cp.toNat = 1 ∧
      SameButScalars [rd] s.regs r'

/-- R103, R105: `INV` of an operand that shares a factor with `CP` (0 and the multiples of `CP` among them) sets `ERR = 1` and changes
nothing else. -/
def Obligations.InvRaisesNoInverse : Prop :=
  ∀ (s : State) (rd rk : SReg), 2 ≤ s.regs.cp.toNat → Nat.gcd s.regs.sr[rk].toNat s.regs.cp.toNat ≠ 1 →
    exec (.inv rd rk) s = .next { s with regs := { s.regs with err := 1 } }

/-! ### Points: `PEQ`, `PNEG`, `PADD` (spec/41_point_ops.md) -/

/-- R120, R121: `PEQ` completes in every state, `CP = 0` included, and writes 1 if the two point values are the same, else 0: two
registers holding `Inf` are equal whatever their coordinates, and affine coordinates are compared as stored. -/
def Obligations.PeqWritesStructuralEquality : Prop :=
  ∀ (s : State) (rd : SReg) (rs1 rs2 : PReg),
    ∃ r' : Regs s.cfg.W, exec (.peq rd rs1 rs2) s = .next { s with regs := r' } ∧ r'.err = 0 ∧
      (r'.sr[rd].toNat = 1 ↔
        (s.regs.pr[rs1].inf = true ∧ s.regs.pr[rs2].inf = true) ∨
        (s.regs.pr[rs1].inf = false ∧ s.regs.pr[rs2].inf = false ∧ s.regs.pr[rs1].x = s.regs.pr[rs2].x ∧
          s.regs.pr[rs1].y = s.regs.pr[rs2].y)) ∧
      (r'.sr[rd].toNat = 0 ∨ r'.sr[rd].toNat = 1) ∧ SameButScalars [rd] s.regs r'

/-- R122, R123: `PNEG` of an in-range point completes: `Inf` gives canonical `Inf`, `Aff(x, y)` gives `Aff(x, (p - y) mod p)`. -/
def Obligations.PnegWritesTheNegation : Prop :=
  ∀ (s : State) (rd rs1 : PReg), 2 ≤ s.regs.cp.toNat → ¬ OutOfRange s.regs rs1 →
    ∃ r' : Regs s.cfg.W, exec (.pneg rd rs1) s = .next { s with regs := r' } ∧ r'.err = 0 ∧
      (s.regs.pr[rs1].inf = true → Holds r'.pr[rd] .inf) ∧
      (s.regs.pr[rs1].inf = false →
        Holds r'.pr[rd] (.aff s.regs.pr[rs1].x.toNat ((s.regs.cp.toNat - s.regs.pr[rs1].y.toNat) % s.regs.cp.toNat))) ∧
      SameButPoints [rd] s.regs r'

/-- R122, R126, R133: negation is involutive on points with `y` in `[0, p)` and fixes `Inf`, and `P + negate(P)` is `Inf`, on the curve or
not. R133 marks both as its own inference from R122 and R126. -/
def Obligations.NegationIsTheGroupInverse : Prop :=
  ∀ (P : Point) (a p : Nat), (∀ x y, P = .aff x y → y < p) →
    negate (negate P p) p = P ∧ negate .inf p = .inf ∧ add P (negate P p) a p = .ok .inf

/-- R125, R126: `Inf` is the identity on either side, and two points with the same `x` and `(y1 + y2) mod p == 0` add to `Inf`. -/
def Obligations.AddTakesItsFirstTwoCases : Prop :=
  (∀ (Q : Point) (a p : Nat), add .inf Q a p = .ok Q ∧ add Q .inf a p = .ok Q) ∧
  ∀ x y1 y2 a p : Nat, (y1 + y2) % p = 0 → add (.aff x y1) (.aff x y2) a p = .ok .inf

/-- R127, R129: doubling. The slope `m` solves `2*y*m = 3*x^2 + a` modulo `p`, and the sum is the third point of the tangent. -/
def Obligations.AddDoublesByTheTangent : Prop :=
  ∀ x y a p : Nat, 2 ≤ p → Nat.gcd (2 * y % p) p = 1 →
    ∃ m x3 y3 : Nat, m < p ∧ x3 < p ∧ y3 < p ∧ add (.aff x y) (.aff x y) a p = .ok (.aff x3 y3) ∧
      2 * (y : Int) * m ≡ 3 * x * x + a [ZMOD p] ∧ (x3 : Int) ≡ m * m - x - x [ZMOD p] ∧
      (y3 : Int) ≡ m * (x - x3) - y [ZMOD p]

/-- R128, R129: generic addition. The slope `m` solves `(x2 - x1)*m = y2 - y1` modulo `p`, and the sum is the third point of the
chord. -/
def Obligations.AddJoinsDistinctPointsByTheChord : Prop :=
  ∀ x1 y1 x2 y2 a p : Nat, 2 ≤ p → Int.gcd ((x2 : Int) - x1) p = 1 →
    ∃ m x3 y3 : Nat, m < p ∧ x3 < p ∧ y3 < p ∧ add (.aff x1 y1) (.aff x2 y2) a p = .ok (.aff x3 y3) ∧
      ((x2 : Int) - x1) * m ≡ y2 - y1 [ZMOD p] ∧ (x3 : Int) ≡ m * m - x1 - x2 [ZMOD p] ∧
      (y3 : Int) ≡ m * (x1 - x3) - y1 [ZMOD p]

/-- R130: `add` raises `NoInverse` exactly when case 3 or case 4 lacks its inverse, and no other error; over a prime, for in-range
operands, only for two different points with the same `x`. -/
def Obligations.AddRaisesNoInverseExactly : Prop :=
  ∀ (P Q : Point) (a p : Nat), 2 ≤ p →
    (add P Q a p = .error .noInverse ↔ ¬ AddDefined p P Q) ∧ (∀ e, add P Q a p = .error e → e = .noInverse) ∧
    (p.Prime → P.inRange p = true → Q.inRange p = true → add P Q a p = .error .noInverse →
      ∃ x y1 y2, P = .aff x y1 ∧ Q = .aff x y2 ∧ y1 ≠ y2)

/-- R131: `PADD` of in-range points whose addition has its inverse completes and writes the sum in canonical form, and only that. -/
def Obligations.PaddWritesTheSum : Prop :=
  ∀ (s : State) (rd rs1 rs2 : PReg), 2 ≤ s.regs.cp.toNat → ¬ OutOfRange s.regs rs1 → ¬ OutOfRange s.regs rs2 →
    AddDefined s.regs.cp.toNat (s.regs.point rs1) (s.regs.point rs2) →
    ∃ (R : Point) (r' : Regs s.cfg.W),
      add (s.regs.point rs1) (s.regs.point rs2) s.regs.ca.toNat s.regs.cp.toNat = .ok R ∧
      exec (.padd rd rs1 rs2) s = .next { s with regs := r' } ∧ r'.err = 0 ∧ Holds r'.pr[rd] R ∧
      SameButPoints [rd] s.regs r'

/-- R130, R131: `PADD` of in-range points whose addition lacks its inverse sets `ERR = 1` and changes nothing else. -/
def Obligations.PaddRaisesNoInverse : Prop :=
  ∀ (s : State) (rd rs1 rs2 : PReg), 2 ≤ s.regs.cp.toNat → ¬ OutOfRange s.regs rs1 → ¬ OutOfRange s.regs rs2 →
    ¬ AddDefined s.regs.cp.toNat (s.regs.point rs1) (s.regs.point rs2) →
    exec (.padd rd rs1 rs2) s = .next { s with regs := { s.regs with err := 1 } }

/-- R130, R132: `add` is commutative for all in-range operands. R132 says so where no `NoInverse` is raised; that both orders raise it
together is read from the conditions of R130. -/
def Obligations.AddIsCommutative : Prop :=
  ∀ (P Q : Point) (a p : Nat), 2 ≤ p → P.inRange p = true → Q.inRange p = true → add P Q a p = add Q P a p

/-- R124, R127, R128: over a prime field the sum of two points of the curve exists and is a point of the curve. -/
def Obligations.CurveIsClosedUnderAdd : Prop :=
  ∀ (P Q : Point) (a b p : Nat), p.Prime → OnCurve a b p P → OnCurve a b p Q →
    ∃ R, add P Q a p = .ok R ∧ OnCurve a b p R

/-- R84, R122, R124, R127 to R129, R150, R170, R172, R191: with a prime `CP` and operand points on the curve `PADD`, `PNEG`, `PMUL`, `ENC`
and `DEC` complete with `ERR = 0` (R191: no `NoInverse` arises), their results are on the curve (read from the formulas of the other
rules), and nothing but their destinations changes (R84). -/
def Obligations.CommandsOnTheCurveComplete : Prop :=
  ∀ (i : Instr) (s : State), WellFormed i → pointSources i ≠ [] → s.regs.cp.toNat.Prime →
    (∀ q ∈ pointSources i, OnCurve s.regs.ca.toNat s.regs.cb.toNat s.regs.cp.toNat (s.regs.point q)) →
    ∃ r' : Regs s.cfg.W, exec i s = .next { s with regs := r' } ∧ r'.err = 0 ∧
      (∀ q ∈ pointDestinations i, OnCurve s.regs.ca.toNat s.regs.cb.toNat s.regs.cp.toNat (r'.point q)) ∧
      SameButPoints (pointDestinations i) s.regs r'

/-! ### Scalar multiplication and `PMUL` (spec/42_scalar_mul.md) -/

/-- R150: the loop on `R`, `running` and `k`: at 0 it returns `R`; else it accumulates if the low bit is set, then doubles, then goes on
with `k div 2`. -/
def Obligations.MultiplyFollowsDoubleAndAdd : Prop :=
  (∀ (P : Point) (k a p : Nat), multiply P k a p = multiplyLoop a p k .inf P k) ∧
  ∀ (R running : Point) (k a p : Nat),
    multiplyLoop a p 0 R running 0 = .ok R ∧
    (k ≠ 0 → multiplyLoop a p k R running k =
      (if k % 2 = 1 then add R running a p else .ok R).bind fun R' =>
        (add running running a p).bind fun running' => multiplyLoop a p (k / 2) R' running' (k / 2))

/-- R152: the loop has ended after `bitlen(k)` iterations: allowing more changes nothing. -/
def Obligations.MultiplyEndsAfterBitlenIterations : Prop :=
  ∀ (R running : Point) (k a p n : Nat), bitlen k ≤ n →
    multiplyLoop a p n R running k = multiplyLoop a p (bitlen k) R running k ∧ k / 2 ^ n = 0 ∧
      ∀ j, j < bitlen k → k / 2 ^ j ≠ 0

/-- R152: every one of the `bitlen(k)` doublings is made, the unused last one included: `multiply` returns only if all of them exist. -/
def Obligations.MultiplyMakesEveryDoubling : Prop :=
  ∀ (P R : Point) (k a p : Nat), multiply P k a p = .ok R → ∃ D, doubleTimes a p (bitlen k) P = .ok D

/-- R151, R155: `0·P` is `Inf` for every `P`; `1·P` is `P` whenever its doubling exists, and raises what the doubling raises; `k·Inf` is
`Inf` for every `k`. -/
def Obligations.MultiplyBySmallScalars : Prop :=
  ∀ (P : Point) (k a p : Nat), multiply P 0 a p = .ok .inf ∧
    (∀ D, add P P a p = .ok D → multiply P 1 a p = .ok P) ∧
    (∀ e, add P P a p = .error e → multiply P 1 a p = .error e) ∧ multiply .inf k a p = .ok .inf

/-- R155: on a non-singular curve over a prime field of odd characteristic `(j + k)·P = j·P + k·P`, with no error on the way. `p =
2` and `p = 3` are the fields for which the spec makes no group-law claim (spec/93_implementation_defined.md U15): leaving out 2 and
keeping 3 is the model's choice (notes/assumptions/7.md). -/
def Obligations.MultiplyIsLinear : Prop :=
  ∀ (P : Point) (j k a b p : Nat), GoodCurve a b p → OnCurve a b p P →
    ∃ J K R, multiply P j a p = .ok J ∧ multiply P k a p = .ok K ∧ add J K a p = .ok R ∧ multiply P (j + k) a p = .ok R

/-- R153: `PMUL` of an in-range point completes with the multiple in canonical form, and only that; if an addition inside raises
`NoInverse`, `ERR = 1` is all that changes. -/
def Obligations.PmulWritesTheMultiple : Prop :=
  ∀ (s : State) (rd rs1 : PReg) (rk : SReg), 2 ≤ s.regs.cp.toNat → ¬ OutOfRange s.regs rs1 →
    (∀ R, multiply (s.regs.point rs1) s.regs.sr[rk].toNat s.regs.ca.toNat s.regs.cp.toNat = .ok R →
      ∃ r' : Regs s.cfg.W, exec (.pmul rd rs1 rk) s = .next { s with regs := r' } ∧ r'.err = 0 ∧ Holds r'.pr[rd] R ∧
        SameButPoints [rd] s.regs r') ∧
    (∀ e, multiply (s.regs.point rs1) s.regs.sr[rk].toNat s.regs.ca.toNat s.regs.cp.toNat = .error e →
      exec (.pmul rd rs1 rk) s = .next { s with regs := { s.regs with err := 1 } })

/-! ### The message encoder and `ENCODE` (spec/43_message_codec.md) -/

/-- R160, R161, R163: the encoder returns exactly the first point of the search, `x` unreduced, and never `Inf`. -/
def Obligations.EncoderReturnsTheFirstPoint : Prop :=
  ∀ m a b p : Nat, (∀ x y, encodeMsg m a b p = .ok (.aff x y) ↔ FirstPoint m a b p x y) ∧ encodeMsg m a b p ≠ .ok .inf

/-- R162: the encoder signals `EncodingFailure` exactly when no `x` of the window has a root, and no other error. -/
def Obligations.EncoderFailsExactlyWithoutRoot : Prop :=
  ∀ m a b p : Nat,
    (encodeMsg m a b p = .error .encodingFailure ↔ ∀ x y, 10 * m ≤ x → x ≤ 10 * m + 9 → ¬ IsRoot a b p x y) ∧
    ∀ e, encodeMsg m a b p = .error e → e = .encodingFailure

/-- R164: `ENCODE` with `CP >= 2`, a window that fits the register and a root in it completes and writes the first point, and only
that. -/
def Obligations.EncodeWritesTheFirstPoint : Prop :=
  ∀ (s : State) (rd : PReg) (rk : SReg) (x y : Nat), 2 ≤ s.regs.cp.toNat → 10 * s.regs.sr[rk].toNat + 9 < 2 ^ s.cfg.W →
    FirstPoint s.regs.sr[rk].toNat s.regs.ca.toNat s.regs.cb.toNat s.regs.cp.toNat x y →
    ∃ r' : Regs s.cfg.W, exec (.encode rd rk) s = .next { s with regs := r' } ∧ r'.err = 0 ∧
      Holds r'.pr[rd] (.aff x y) ∧ SameButPoints [rd] s.regs r'

/-- R162, R164: `ENCODE` without a root in its window sets `ERR = 2` and changes nothing else. -/
def Obligations.EncodeRaisesEncodingFailure : Prop :=
  ∀ (s : State) (rd : PReg) (rk : SReg), 2 ≤ s.regs.cp.toNat → 10 * s.regs.sr[rk].toNat + 9 < 2 ^ s.cfg.W →
    (∀ x y, 10 * s.regs.sr[rk].toNat ≤ x → x ≤ 10 * s.regs.sr[rk].toNat + 9 →
      ¬ IsRoot s.regs.ca.toNat s.regs.cb.toNat s.regs.cp.toNat x y) →
    exec (.encode rd rk) s = .next { s with regs := { s.regs with err := 2 } }

/-! ### ElGamal: `ENC`, `DEC` (spec/44_elgamal.md) -/

/-- R170, R171: `ENC` with two different destinations and in-range points writes `C1 = k·G` and `C2 = M + k·Q`, both and only them. If
one of its three steps (the multiple of `G`, the multiple of `Q`, the sum) raises an error, `encrypt` raises `NoInverse`, and `ERR = 1` is
all that changes. -/
def Obligations.EncWritesThePair : Prop :=
  ∀ (s : State) (rd rd2 rs1 rs2 rs3 : PReg) (rk : SReg), rd ≠ rd2 → 2 ≤ s.regs.cp.toNat →
    ¬ OutOfRange s.regs rs1 → ¬ OutOfRange s.regs rs2 → ¬ OutOfRange s.regs rs3 →
    (∀ C1 S C2, multiply (s.regs.point rs3) s.regs.sr[rk].toNat s.regs.ca.toNat s.regs.cp.toNat = .ok C1 →
      multiply (s.regs.point rs2) s.regs.sr[rk].toNat s.regs.ca.toNat s.regs.cp.toNat = .ok S →
      add (s.regs.point rs1) S s.regs.ca.toNat s.regs.cp.toNat = .ok C2 →
      ∃ r' : Regs s.cfg.W, exec (.enc rd rd2 rs1 rs2 rs3 rk) s = .next { s with regs := r' } ∧ r'.err = 0 ∧
        Holds r'.pr[rd] C1 ∧ Holds r'.pr[rd2] C2 ∧ SameButPoints [rd, rd2] s.regs r') ∧
    (∀ e, multiply (s.regs.point rs3) s.regs.sr[rk].toNat s.regs.ca.toNat s.regs.cp.toNat = .error e ∨
        multiply (s.regs.point rs2) s.regs.sr[rk].toNat s.regs.ca.toNat s.regs.cp.toNat = .error e ∨
        (∃ S, multiply (s.regs.point rs2) s.regs.sr[rk].toNat s.regs.ca.toNat s.regs.cp.toNat = .ok S ∧
          add (s.regs.point rs1) S s.regs.ca.toNat s.regs.cp.toNat = .error e) →
      encrypt (s.regs.point rs1) (s.regs.point rs2) (s.regs.point rs3) s.regs.ca.toNat s.regs.cp.toNat s.regs.sr[rk].toNat =
        .error .noInverse ∧
      exec (.enc rd rd2 rs1 rs2 rs3 rk) s = .next { s with regs := { s.regs with err := 1 } })

/-- R172, R173: `DEC` of in-range points writes `M = C2 + negate(d·C1)` and only that. If one of its two steps that can raise (the
multiple of `C1`, the sum) raises an error, `decrypt` raises `NoInverse`, and `ERR = 1` is all that changes. -/
def Obligations.DecWritesTheMessage : Prop :=
  ∀ (s : State) (rd rs1 rs2 : PReg) (rk : SReg), 2 ≤ s.regs.cp.toNat →
    ¬ OutOfRange s.regs rs1 → ¬ OutOfRange s.regs rs2 →
    (∀ S M, multiply (s.regs.point rs1) s.regs.sr[rk].toNat s.regs.ca.toNat s.regs.cp.toNat = .ok S →
      add (s.regs.point rs2) (negate S s.regs.cp.toNat) s.regs.ca.toNat s.regs.cp.toNat = .ok M →
      ∃ r' : Regs s.cfg.W, exec (.dec rd rs1 rs2 rk) s = .next { s with regs := r' } ∧ r'.err = 0 ∧
        Holds r'.pr[rd] M ∧ SameButPoints [rd] s.regs r') ∧
    (∀ e, multiply (s.regs.point rs1) s.regs.sr[rk].toNat s.regs.ca.toNat s.regs.cp.toNat = .error e ∨
        (∃ S, multiply (s.regs.point rs1) s.regs.sr[rk].toNat s.regs.ca.toNat s.regs.cp.toNat = .ok S ∧
          add (s.regs.point rs2) (negate S s.regs.cp.toNat) s.regs.ca.toNat s.regs.cp.toNat = .error e) →
      decrypt (s.regs.point rs1) (s.regs.point rs2) s.regs.sr[rk].toNat s.regs.ca.toNat s.regs.cp.toNat = .error .noInverse ∧
      exec (.dec rd rs1 rs2 rk) s = .next { s with regs := { s.regs with err := 1 } })

/-- R170, R172, R174: on a non-singular curve over a prime field of odd characteristic, with `Q = d·G`, encryption and decryption
raise no error and the decryption of the encryption of `M` is `M`, for every `d` and `k`. `p = 2` and `p = 3` are the fields for
which the spec makes no group-law claim (spec/93_implementation_defined.md U15): leaving out 2 and keeping 3 is the model's choice
(notes/assumptions/7.md). -/
def Obligations.DecryptUndoesEncrypt : Prop :=
  ∀ (M G Q : Point) (a b p d k : Nat), GoodCurve a b p → OnCurve a b p M → OnCurve a b p G → multiply G d a p = .ok Q →
    ∃ C1 C2, encrypt M Q G a p k = .ok (C1, C2) ∧ decrypt C1 C2 d a p = .ok M

/-- R153, R171, R173, R174, R175: the same on the machine, on a non-singular curve over a prime `CP` other than 2: key derivation by
`PMUL`, then `ENC`, then `DEC`, leave the message point in the last destination with `ERR = 0`. The key register must not overwrite
the message or the base point. `p = 2` and `p = 3` are the fields for which the spec makes no group-law claim
(spec/93_implementation_defined.md U15): leaving out 2 and keeping 3 is the model's choice (notes/assumptions/7.md). -/
def Obligations.KeygenEncDecRecoverTheMessage : Prop :=
  ∀ (s : State) (g q m c1 c2 o : PReg) (d k : SReg), q ≠ g → q ≠ m → c1 ≠ c2 →
    GoodCurve s.regs.ca.toNat s.regs.cb.toNat s.regs.cp.toNat →
    OnCurve s.regs.ca.toNat s.regs.cb.toNat s.regs.cp.toNat (s.regs.point g) →
    OnCurve s.regs.ca.toNat s.regs.cb.toNat s.regs.cp.toNat (s.regs.point m) →
    ∃ s1 s2 s3 : State, exec (.pmul q g d) s = .next s1 ∧ exec (.enc c1 c2 m q g k) s1 = .next s2 ∧
      exec (.dec o c1 c2 d) s2 = .next s3 ∧ s3.regs.point o = s.regs.point m ∧ s3.regs.err = 0
end

