-- ==== Sys2Proof/Laws/Arith.lean ====
section
/-! SUPPORT. The integer notation of spec/00_scope.md R13, and how an error passes through `Except`. -/

namespace Sys2Proof.Machine

/-- The floor modulus is below the modulus. -/
theorem modP_lt {x : Int} {p : Nat} (h : 1 ≤ p) : modP x p < p := by
  unfold modP
  have h1 := Int.emod_lt_of_pos x (show (0:Int) < p by omega)
  have h0 := Int.emod_nonneg x (show (p:Int) ≠ 0 by omega)
  omega

/-- It is congruent to its argument. -/
theorem modP_eq {x : Int} {p : Nat} (h : 1 ≤ p) : (modP x p : Int) ≡ x [ZMOD p] := by
  unfold modP
  have h0 := Int.emod_nonneg x (show (p:Int) ≠ 0 by omega)
  rw [Int.toNat_of_nonneg h0]
  exact Int.mod_modEq _ _

/-- It is the only such value. -/
theorem modP_unique {x : Int} {p n : Nat} (h : (n : Int) ≡ x [ZMOD p]) (hn : n < p) : modP x p = n := by
  have h1 := (modP_eq (x := x) (p := p) (by omega)).trans h.symm
  rw [Int.natCast_modEq_iff] at h1
  exact Nat.ModEq.eq_of_lt_of_lt h1 (modP_lt (by omega)) hn

theorem modP_congr {x y : Int} {p : Nat} (h : x ≡ y [ZMOD p]) : modP x p = modP y p := by
  unfold modP; rw [h]

/-- Every number is below the power of two of its bit length. -/
theorem lt_bitlen (k : Nat) : k < 2 ^ bitlen k := by
  unfold bitlen; split
  · simp_all
  · exact Nat.lt_log2_self

theorem one_le_bitlen (p : Nat) (h : 1 ≤ p) : 1 ≤ bitlen p := by unfold bitlen; split <;> omega

/-- Halving takes one bit off. -/
theorem bitlen_half {k : Nat} (hk : k ≠ 0) : bitlen k = bitlen (k/2) + 1 := by
  unfold bitlen
  by_cases h : k / 2 = 0
  · have : k = 1 := by omega
    subst this; decide
  · rw [if_neg hk, if_neg h, Nat.log2_def k, if_pos (by omega)]

theorem except_map_error {α β ε} {x : Except ε α} {f : α → β} {e} (h : x.map f = .error e) : x = .error e := by
  cases x <;> simp_all [Except.map]

theorem except_bind_error {α β ε} {x : Except ε α} {f : α → Except ε β} {e} (h : x.bind f = .error e) : x = .error e ∨ ∃ v, x = .ok v ∧ f v = .error e := by
  cases x <;> simp_all [Except.bind]

theorem except_bind_ok {α β ε} {x : Except ε α} {f : α → Except ε β} {v} (h : x.bind f = .ok v) : ∃ w, x = .ok w ∧ f w = .ok v := by
  cases x <;> simp_all [Except.bind]

end Sys2Proof.Machine
end

