-- ==== Sys2Proof/Laws/Decode.lean ====
section
/-! SUPPORT. The command word and its fields are two views of one thing, and no two rows of the opcode table meet. -/

namespace Sys2Proof

@[simp] theorem regOfField_fieldOfReg (i : Fin 8) : regOfField (fieldOfReg i) = i := rfl
@[simp] theorem fieldOfReg_regOfField (f : BitVec 3) : fieldOfReg (regOfField f) = f := rfl

theorem fieldOfReg_inj {i j : Fin 8} : fieldOfReg i = fieldOfReg j ↔ i = j :=
  ⟨fun h => by simpa using congrArg regOfField h, fun h => h ▸ rfl⟩

/-- Taking a word apart after putting it together gives the fields back: no field overlaps another (R71). -/
theorem unpack_pack (f : Fields) : unpack (pack f) = f := by
  obtain ⟨opc, rd, rd2, rs1, rs2, rs3, rk, z⟩ := f
  simp only [unpack, pack, Fields.mk.injEq]
  refine ⟨?_, ?_, ?_, ?_, ?_, ?_, ?_, ?_⟩ <;>
  · ext i hi
    simp only [BitVec.getElem_extractLsb', BitVec.getLsbD_append]
    interval_cases i <;> simp [BitVec.getLsbD_eq_getElem]

/-- Putting a word together from its own fields gives the word back: every bit is in some field (R71). -/
theorem pack_unpack (w : CmdWord) : pack (unpack w) = w := by
  apply BitVec.eq_of_getLsbD_eq
  intro i hi
  simp only [unpack, pack, BitVec.getLsbD_append, BitVec.getLsbD_extractLsb']
  interval_cases i <;> simp

theorem pack_inj {f g : Fields} : pack f = pack g ↔ f = g :=
  ⟨fun h => by simpa [unpack_pack] using congrArg unpack h, fun h => h ▸ rfl⟩

/-- A mask is taken field by field. -/
theorem pack_and_pack (f g : Fields) : pack f &&& pack g =
    pack ⟨f.opc &&& g.opc, f.rd &&& g.rd, f.rd2 &&& g.rd2, f.rs1 &&& g.rs1, f.rs2 &&& g.rs2, f.rs3 &&& g.rs3,
      f.rk &&& g.rk, f.z &&& g.z⟩ := by
  apply BitVec.eq_of_getLsbD_eq
  intro i hi
  simp only [pack, BitVec.getLsbD_append, BitVec.getLsbD_and]
  repeat' split
  all_goals rfl

/-- No two rows of R74 share an opcode. -/
theorem opcodeTable_distinct : opcodeTable.Pairwise (fun x y => x.opc ≠ y.opc) := by decide

/-- No word matches two rows of R74: every two rows differ in a bit both masks cover. -/
theorem opcodeTable_disjoint : opcodeTable.Pairwise (fun x y => (x.pattern ^^^ y.pattern) &&& (x.mask &&& y.mask) ≠ 0) := by
  decide

/-- A row's pattern sets no bit its mask leaves free. -/
theorem opcodeTable_pattern_mask : ∀ row ∈ opcodeTable, row.pattern &&& row.mask = row.pattern := by decide

/-- A row that is found is a row of the table, with the opcode looked for. -/
theorem rowOf_some {opc : BitVec 8} {row : OpRow} (h : rowOf opc = some row) : row.opc = opc ∧ row ∈ opcodeTable := by
  constructor
  · have := List.find?_some h; simpa using this
  · exact List.mem_of_find?_eq_some h

/-- What a word that decodes satisfies. -/
theorem decode_ok {w : CmdWord} {i : Instr} (h : decode w = .ok i) :
    ∃ row ∈ opcodeTable, row.opc = (unpack w).opc ∧ w &&& row.mask = row.pattern ∧ assemble row.op (unpack w) = .ok i := by
  unfold decode at h
  split at h
  · cases h
  · rename_i row hr
    split at h
    · exact ⟨row, (rowOf_some hr).2, (rowOf_some hr).1, ‹_›, h⟩
    · cases h

/-- A mask test is a test of every field. -/
theorem unpack_and_of_mask {w : CmdWord} {m p : Fields} (h : w &&& pack m = pack p) :
   (⟨(unpack w).opc &&& m.opc, (unpack w).rd &&& m.rd, (unpack w).rd2 &&& m.rd2, (unpack w).rs1 &&& m.rs1,
      (unpack w).rs2 &&& m.rs2, (unpack w).rs3 &&& m.rs3, (unpack w).rk &&& m.rk, (unpack w).z &&& m.z⟩ : Fields) = p := by
  rw [← pack_unpack w, pack_and_pack, pack_inj, unpack_pack] at *
  exact h

end Sys2Proof
end

