-- ==== Sys2Proof/Laws/Loops.lean ====
section
/-! SUPPORT. The loops end: more iterations than the loop needs change nothing (notes/assumptions/4.md). -/

namespace Sys2Proof.Machine

/-- The remainder falls in every iteration (spec/40_field_inverse.md R102 (b)). -/
theorem euclidStep_newr (e : Euclid) (hn : e.newr ≠ 0) : (euclidStep e).newr < e.newr := by
  simp only [euclidStep]
  have hmod : e.r - e.r / e.newr * e.newr = e.r % e.newr := by
    have := Nat.div_add_mod e.r e.newr; rw [Nat.mul_comm] at this; omega
  rw [hmod]; exact Nat.mod_lt _ (Nat.pos_of_ne_zero hn)

/-- So the loop has ended after as many iterations as its start value. -/
theorem euclidLoop_ends {n : Nat} : ∀ {e : Euclid}, e.newr ≤ n → (euclidLoop n e).newr = 0 := by
  induction n with
  | zero => intro e h; simpa [euclidLoop] using h
  | succ n ih => intro e h; unfold euclidLoop; split; assumption; exact ih (by have := euclidStep_newr e ‹_›; omega)

/-- More iterations change nothing once it has ended. -/
theorem euclidLoop_fuel {n : Nat} : ∀ {e : Euclid} (m), (euclidLoop n e).newr = 0 → n ≤ m → euclidLoop m e = euclidLoop n e := by
  induction n with
  | zero => intro e m h _; cases m <;> simp_all [euclidLoop]
  | succ n ih =>
    intro e m h hm
    obtain ⟨m, rfl⟩ : ∃ k, m = k + 1 := ⟨m - 1, by omega⟩
    unfold euclidLoop at h ⊢
    split
    · rfl
    · rename_i hn; rw [if_neg hn] at h; exact ih m h (by omega)

theorem multiplyLoop_zero (a p n R run) : multiplyLoop a p n R run 0 = .ok R := by cases n <;> simp [multiplyLoop]

theorem multiplyLoop_succ (a p n R run k) (hk : k ≠ 0) : multiplyLoop a p (n+1) R run k = 
      (if k % 2 = 1 then add R run a p else .ok R).bind fun R' =>
        (add run run a p).bind fun running' => multiplyLoop a p n R' running' (k / 2) := by
  rw [multiplyLoop, if_neg hk]

theorem half_lt_two_pow {k n : Nat} (h : k < 2 ^ (n+1)) : k / 2 < 2 ^ n := by rw [pow_succ] at h; omega

/-- The loop of `multiply` needs one iteration per bit of `k`. -/
theorem multiplyLoop_fuel (a p) (n : Nat) : ∀ (m : Nat) (R run k), k < 2 ^ n → n ≤ m → multiplyLoop a p m R run k = multiplyLoop a p n R run k := by
  induction n with
  | zero => intro m R run k h _; have : k = 0 := by simpa using h
            subst this; rw [multiplyLoop_zero, multiplyLoop_zero]
  | succ n ih =>
    intro m R run k h hm
    obtain ⟨m, rfl⟩ : ∃ j, m = j + 1 := ⟨m - 1, by omega⟩
    by_cases hk : k = 0
    · subst hk; rw [multiplyLoop_zero, multiplyLoop_zero]
    · rw [multiplyLoop_succ _ _ _ _ _ _ hk, multiplyLoop_succ _ _ _ _ _ _ hk]
      congr 1; funext R'; congr 1; funext run'
      exact ih m R' run' _ (half_lt_two_pow h) (by omega)

/-- Any two bounds that are large enough give the same result. -/
theorem multiplyLoop_enough (a p R run k n m) (hn : k < 2^n) (hm : k < 2^m) : multiplyLoop a p n R run k = multiplyLoop a p m R run k := by
  rcases Nat.le_total n m with h | h
  · exact (multiplyLoop_fuel a p n m R run k hn h).symm
  · exact multiplyLoop_fuel a p m n R run k hm h

end Sys2Proof.Machine
end

