-- ==== Sys2Proof/Laws/State.lean ====
section
/-! SUPPORT. One lemma per field per update of the registers, and what an operand read gives after an operand write. -/

namespace Sys2Proof.Machine

section
variable {W : Nat} (r : Regs W) (e : BitVec 4) (i j : Fin 8) (v : Nat) (P : Point)

@[simp] theorem Regs.setErr_cmd : (r.setErr e).cmd = r.cmd := rfl
@[simp] theorem Regs.setErr_err : (r.setErr e).err = e := rfl
@[simp] theorem Regs.setErr_ca : (r.setErr e).ca = r.ca := rfl
@[simp] theorem Regs.setErr_cb : (r.setErr e).cb = r.cb := rfl
@[simp] theorem Regs.setErr_cp : (r.setErr e).cp = r.cp := rfl
@[simp] theorem Regs.setErr_sr : (r.setErr e).sr = r.sr := rfl
@[simp] theorem Regs.setErr_pr : (r.setErr e).pr = r.pr := rfl
@[simp] theorem Regs.setErr_setErr (e' : BitVec 4) : (r.setErr e).setErr e' = r.setErr e' := rfl
@[simp] theorem Regs.setErr_coeffA : (r.setErr e).coeffA = r.coeffA := rfl
@[simp] theorem Regs.setErr_coeffB : (r.setErr e).coeffB = r.coeffB := rfl
@[simp] theorem Regs.setErr_modulus : (r.setErr e).modulus = r.modulus := rfl
@[simp] theorem Regs.setErr_scalar : (r.setErr e).scalar i = r.scalar i := rfl
@[simp] theorem Regs.setErr_point : (r.setErr e).point i = r.point i := rfl

@[simp] theorem Regs.setScalar_cmd : (r.setScalar i v).cmd = r.cmd := rfl
@[simp] theorem Regs.setScalar_err : (r.setScalar i v).err = r.err := rfl
@[simp] theorem Regs.setScalar_ca : (r.setScalar i v).ca = r.ca := rfl
@[simp] theorem Regs.setScalar_cb : (r.setScalar i v).cb = r.cb := rfl
@[simp] theorem Regs.setScalar_cp : (r.setScalar i v).cp = r.cp := rfl
@[simp] theorem Regs.setScalar_sr : (r.setScalar i v).sr = r.sr.set i (BitVec.ofNat W v) := rfl
@[simp] theorem Regs.setScalar_pr : (r.setScalar i v).pr = r.pr := rfl
@[simp] theorem Regs.setScalar_point : (r.setScalar i v).point j = r.point j := rfl

@[simp] theorem Regs.setPoint_cmd : (r.setPoint i P).cmd = r.cmd := rfl
@[simp] theorem Regs.setPoint_err : (r.setPoint i P).err = r.err := rfl
@[simp] theorem Regs.setPoint_ca : (r.setPoint i P).ca = r.ca := rfl
@[simp] theorem Regs.setPoint_cb : (r.setPoint i P).cb = r.cb := rfl
@[simp] theorem Regs.setPoint_cp : (r.setPoint i P).cp = r.cp := rfl
@[simp] theorem Regs.setPoint_sr : (r.setPoint i P).sr = r.sr := rfl
@[simp] theorem Regs.setPoint_pr : (r.setPoint i P).pr = r.pr.set i (PointReg.ofPoint W P) := rfl
@[simp] theorem Regs.setPoint_scalar : (r.setPoint i P).scalar j = r.scalar j := rfl

/-- A scalar register reads as the low `W` bits of what was written to it. -/
theorem Regs.scalar_setScalar_self : (r.setScalar i v).scalar i = v % 2 ^ W := by
  simp [Regs.scalar]

/-- A write of one scalar register leaves the others. -/
theorem Regs.scalar_setScalar_of_ne (h : j ≠ i) : (r.setScalar i v).scalar j = r.scalar j := by
  have hv : i.val ≠ j.val := fun h' => h (Fin.ext h'.symm)
  simp [Regs.scalar, Vector.getElem_set_ne _ _ hv]

/-- The stored form of a point value reads back as the value when its coordinates fit (R28). -/
theorem PointReg.value_ofPoint (h : ∀ x y, P = .aff x y → x < 2 ^ W ∧ y < 2 ^ W) : (PointReg.ofPoint W P).value = P := by
  cases P with
  | inf => rfl
  | aff x y =>
    obtain ⟨hx, hy⟩ := h x y rfl
    simp [PointReg.ofPoint, PointReg.value, Nat.mod_eq_of_lt hx, Nat.mod_eq_of_lt hy]

/-- A point register reads as the point written to it when its coordinates fit. -/
theorem Regs.point_setPoint_self (h : ∀ x y, P = .aff x y → x < 2 ^ W ∧ y < 2 ^ W) : (r.setPoint i P).point i = P := by
  simpa [Regs.point] using PointReg.value_ofPoint P h

/-- A write of one point register leaves the others. -/
theorem Regs.point_setPoint_of_ne (h : j ≠ i) : (r.setPoint i P).point j = r.point j := by
  have hv : i.val ≠ j.val := fun h' => h (Fin.ext h'.symm)
  simp [Regs.point, Vector.getElem_set_ne _ _ hv]

end

@[simp] theorem State.setCmd_cfg (s : State) (w : CmdWord) : (s.setCmd w).cfg = s.cfg := rfl
@[simp] theorem State.setCmd_pending (s : State) (w : CmdWord) : (s.setCmd w).pending = s.pending := rfl
@[simp] theorem State.setCmd_replies (s : State) (w : CmdWord) : (s.setCmd w).replies = s.replies := rfl
@[simp] theorem State.setCmd_regs (s : State) (w : CmdWord) : (s.setCmd w).regs = { s.regs with cmd := w } := rfl

@[simp] theorem State.resetOf_cfg (c : Config) : (State.resetOf c).cfg = c := rfl
@[simp] theorem State.resetOf_regs (c : Config) : (State.resetOf c).regs = Regs.reset := rfl
@[simp] theorem State.resetOf_pending (c : Config) : (State.resetOf c).pending = [] := rfl
@[simp] theorem State.resetOf_replies (c : Config) : (State.resetOf c).replies = [] := rfl

end Sys2Proof.Machine
end

