-- ==== Sys2Proof/Laws/Ops.lean ====
section
/-! SUPPORT. What the shared operations can do, said once: raising, completing, the command template, the port's register read and
write, and how one step takes one input. -/

namespace Sys2Proof.Machine

theorem raise_eq (e : CmdError) (s : State) : raise e s = .next { s with regs := s.regs.setErr e.code } := rfl

theorem complete_eq (s : State) (r : Regs s.cfg.W) : complete s r = .next { s with regs := r.setErr noError } := rfl

section
variable {α : Type} {s : State} {inRange : Bool} {result : Except CmdError α} {write : α → Regs s.cfg.W}

/-- A failed range check ends the command (R195). -/
theorem command_of_not_inRange (h : inRange = false) : command s inRange result write = raise .operandRange s := by
  simp [command, h]

/-- A function that raises ends the command with its error. -/
theorem command_of_error {e : CmdError} (h : inRange = true) (he : result = .error e) :
    command s inRange result write = raise e s := by
  simp [command, h, he]

/-- A function that returns writes its destinations and clears `ERR`. -/
theorem command_of_ok {v : α} (h : inRange = true) (hv : result = .ok v) :
    command s inRange result write = complete s (write v) := by
  simp [command, h, hv]

/-- Everything the template can do: it answers a next state in which only the registers differ, and these are the old ones with an
error code, or the written ones with `ERR = 0`. -/
theorem command_cases (s : State) (inRange : Bool) (result : Except CmdError α) (write : α → Regs s.cfg.W) :
    (inRange = false ∧ command s inRange result write = .next { s with regs := s.regs.setErr 4 }) ∨
    (∃ e, inRange = true ∧ result = .error e ∧ command s inRange result write = .next { s with regs := s.regs.setErr e.code }) ∨
    (∃ v, inRange = true ∧ result = .ok v ∧ command s inRange result write = .next { s with regs := (write v).setErr 0 }) := by
  cases inRange with
  | false => exact .inl ⟨rfl, rfl⟩
  | true =>
    cases result with
    | error e => exact .inr (.inl ⟨e, rfl, rfl, rfl⟩)
    | ok v => exact .inr (.inr ⟨v, rfl, rfl, rfl⟩)

end

/-- No error has the code of success. -/
theorem CmdError.code_ne_zero (e : CmdError) : e.code ≠ 0 := by cases e <;> decide

/-- The index map gives every named register its own index. -/
theorem regAt_cmd_iff (idx : BitVec 6) : regAt idx = .cmd ↔ idx = 0 := by
  revert idx; decide

@[simp] theorem hostRead_eq (idx : BitVec 6) (s : State) :
    hostRead idx s = .next { s with replies := s.replies ++ [s.regs.read s.cfg.DW (regAt idx)] } := rfl

/-- A write of an index that is not `CMD` only stores (R52). -/
theorem hostWrite_of_ne_cmd (s : State) (idx : BitVec 6) (v : BitVec s.cfg.DW) (h : idx ≠ 0) :
    hostWrite s idx v = .next { s with regs := s.regs.write (regAt idx) v } := by
  have hn : regAt idx ≠ .cmd := fun h' => h ((regAt_cmd_iff idx).1 h')
  unfold hostWrite
  split
  · exact absurd ‹_› hn
  · rfl

/-- A write of `CMD` executes the low 32 bits of the word (R52, R84). -/
theorem hostWrite_cmd (s : State) (v : BitVec s.cfg.DW) : hostWrite s 0 v = executeWord (v.setWidth 32) s := rfl

theorem executeWord_of_ok {w : CmdWord} {i : Instr} (s : State) (h : decode w = .ok i) :
    executeWord w s = exec i (s.setCmd w) := by
  simp [executeWord, h]

theorem executeWord_of_error {w : CmdWord} {e : DecodeError} (s : State) (h : decode w = .error e) :
    executeWord w s = raise .illegalCommand (s.setCmd w) := by
  simp [executeWord, h]

/-- With no input pending the engine is idle. -/
theorem step_of_idle (s : State) (h : s.pending = []) : step s = .next s := by
  simp [step, h]

/-- A step takes the oldest pending input. -/
theorem step_of_pending (s : State) (i : Input s.cfg.DW) (rest : List (Input s.cfg.DW)) (h : s.pending = i :: rest) :
    step s = accept { s with pending := rest } i := by
  simp [step, h]

end Sys2Proof.Machine
end

