-- ==== Sys2Proof/Laws/Operands.lean ====
section
/-! SUPPORT. What an operand read, a range check and a destination write are in the registers' own numbers, and what the port's register read
and write do. -/

namespace Sys2Proof.Machine

/-- Zero extension keeps the number. -/
theorem toNat_setWidth_of_le {m k : Nat} (h : m ≤ k) (v : BitVec m) : (v.setWidth k).toNat = v.toNat := by
  simp; exact Nat.mod_eq_of_lt (lt_of_lt_of_le v.isLt (Nat.pow_le_pow_right (by decide) h))

/-- Truncation takes the low bits. -/
theorem setWidth_eq_ofNat {k : Nat} (W) (v : BitVec k) : v.setWidth W = BitVec.ofNat W v.toNat := by
  apply BitVec.eq_of_toNat_eq; simp

theorem regAt_of_sr (i : Fin 8) (idx : BitVec 6) (h : idx.toNat = 8 + i.val) : regAt idx = .sr i := by
  have : idx = BitVec.ofNat 6 (8 + i.val) := by apply BitVec.eq_of_toNat_eq; rw [h]; simp; omega
  subst this; clear h; revert i; decide

theorem regAt_of_tag (i : Fin 8) (idx : BitVec 6) (h : idx.toNat = 0x10 + 4*i.val) : regAt idx = .tag i := by
  have : idx = BitVec.ofNat 6 (0x10 + 4*i.val) := by apply BitVec.eq_of_toNat_eq; rw [h]; simp; omega
  subst this; clear h; revert i; decide

theorem regAt_of_x (i : Fin 8) (idx : BitVec 6) (h : idx.toNat = 0x11 + 4*i.val) : regAt idx = .x i := by
  have : idx = BitVec.ofNat 6 (0x11 + 4*i.val) := by apply BitVec.eq_of_toNat_eq; rw [h]; simp; omega
  subst this; clear h; revert i; decide

theorem regAt_of_y (i : Fin 8) (idx : BitVec 6) (h : idx.toNat = 0x12 + 4*i.val) : regAt idx = .y i := by
  have : idx = BitVec.ofNat 6 (0x12 + 4*i.val) := by apply BitVec.eq_of_toNat_eq; rw [h]; simp; omega
  subst this; clear h; revert i; decide

theorem regAt_of_reserved : ∀ idx : BitVec 6, (0x05 ≤ idx.toNat ∧ idx.toNat ≤ 0x07) ∨ (0x10 ≤ idx.toNat ∧ idx.toNat < 0x30 ∧ idx.toNat % 4 = 3) ∨ 0x30 ≤ idx.toNat → regAt idx = .reserved := by
  decide

theorem regAt_of_low : ∀ idx : BitVec 6, (idx.toNat = 0 → regAt idx = .cmd) ∧ (idx.toNat = 1 → regAt idx = .status) ∧ (idx.toNat = 2 → regAt idx = .ca) ∧ (idx.toNat = 3 → regAt idx = .cb) ∧ (idx.toNat = 4 → regAt idx = .cp) := by
  decide

/-- A write of one register leaves what another reads as; a reserved index has nothing to write. -/
theorem read_write_of_ne {W dw k} (r : Regs W) (n n' : RegName) (v : BitVec k) (h : n' ≠ n ∨ n = .reserved) :
    (r.write n v).read dw n' = r.read dw n' := by
  cases n <;> cases n' <;> simp_all [Regs.write, Regs.read, Regs.status, Vector.getElem_set, Fin.ext_iff] <;>
    (try split) <;> simp_all

/-- A register reads as the low bits written to it. -/
theorem read_write_self {W dw k} (r : Regs W) (n : RegName) (v : BitVec k) (hW : W ≤ dw) (h1 : 1 ≤ dw) :
    (n = .ca ∨ n = .cb ∨ n = .cp ∨ (∃ i, n = .sr i) ∨ (∃ i, n = .x i) ∨ (∃ i, n = .y i) → ((r.write n v).read dw n).toNat = v.toNat % 2^W) ∧
    ((∃ i, n = .tag i) → ((r.write n v).read dw n).toNat = v.toNat % 2) := by
  constructor
  · rintro (rfl|rfl|rfl|⟨i,rfl⟩|⟨i,rfl⟩|⟨i,rfl⟩) <;> simp only [Regs.write, Regs.read] <;> rw [toNat_setWidth_of_le hW] <;> simp
  · rintro ⟨i, rfl⟩
    simp only [Regs.write, Regs.read]; rw [toNat_setWidth_of_le h1]; simp [BitVec.getLsbD, Nat.testBit]
    rcases Nat.mod_two_eq_zero_or_one v.toNat with h|h <;> simp [h]

/-- A write of a register other than `CMD` leaves `CMD` and `ERR`. -/
theorem write_keeps_err_cmd {W k} (r : Regs W) (n : RegName) (v : BitVec k) (h : n ≠ .cmd) : (r.write n v).err = r.err ∧ (r.write n v).cmd = r.cmd := by
  cases n <;> simp_all [Regs.write]

theorem point_of_inf {W} {r : Regs W} {i} (h : r.pr[i].inf = true) : r.point i = .inf := by
  unfold Regs.point PointReg.value; rw [h]; rfl

theorem point_of_aff {W} {r : Regs W} {i} (h : r.pr[i].inf = false) : r.point i = .aff r.pr[i].x.toNat r.pr[i].y.toNat := by
  unfold Regs.point PointReg.value; rw [h]; rfl

theorem modulusOk_eq_false {W} (r : Regs W) : r.modulusOk = false ↔ r.cp.toNat < 2 := by
  unfold Regs.modulusOk Regs.modulus; rw [decide_eq_false_iff_not]; omega

theorem windowOk_eq_false {W} (r : Regs W) (i : SReg) : r.windowOk i = false ↔ 2^W ≤ 10 * r.sr[i].toNat + 9 := by
  unfold Regs.windowOk Regs.scalar; rw [decide_eq_false_iff_not]; omega

theorem pointOk_eq_false {W} (r : Regs W) (i : PReg) : r.pointOk i = false ↔ OutOfRange r i := by
  simp only [Regs.pointOk, Regs.point, PointReg.value, OutOfRange, Regs.modulus]
  cases h : r.pr[i].inf <;> simp [Point.inRange] <;> omega

theorem modulusOk_of_le {W} {r : Regs W} (h : 2 ≤ r.cp.toNat) : r.modulusOk = true := by
  unfold Regs.modulusOk Regs.modulus; simpa using h

theorem pointOk_of_not_outOfRange {W} {r : Regs W} {i} (h : ¬ OutOfRange r i) : r.pointOk i = true := by
  rw [← pointOk_eq_false] at h; simpa using h

theorem lt_two_pow_of_lt_cp {W} (r : Regs W) {t : Nat} (h : t < r.cp.toNat) : t < 2 ^ W := lt_trans h r.cp.isLt

/-- A point in range fits a point register. -/
theorem fits_of_inRange {W} {r : Regs W} {P : Point} (h : P.inRange r.cp.toNat = true) : ∀ x y, P = .aff x y → x < 2 ^ W ∧ y < 2 ^ W := by
  intro x y hP; subst hP; simp [Point.inRange] at h; exact ⟨lt_two_pow_of_lt_cp r h.1, lt_two_pow_of_lt_cp r h.2⟩

theorem sameButScalars_setScalar {W} (r : Regs W) (rd : SReg) (v : Nat) (e) : SameButScalars [rd] r ((r.setScalar rd v).setErr e) := by
  refine ⟨rfl, rfl, rfl, rfl, rfl, ?_⟩
  intro j hj
  have hv : rd.val ≠ j.val := fun h' => hj (by simp [Fin.ext_iff, h'])
  simp [Vector.getElem_set_ne _ _ hv]

theorem sameButPoints_setPoint {W} (r : Regs W) (rd : PReg) (P) (e) : SameButPoints [rd] r ((r.setPoint rd P).setErr e) := by
  refine ⟨rfl, rfl, rfl, rfl, rfl, ?_⟩
  intro j hj
  have hv : rd.val ≠ j.val := fun h' => hj (by simp [Fin.ext_iff, h'])
  simp [Vector.getElem_set_ne _ _ hv]

theorem holds_ofPoint {W} {P : Point} (h : ∀ x y, P = .aff x y → x < 2 ^ W ∧ y < 2 ^ W) : Holds (PointReg.ofPoint W P) P := by
  cases P with
  | inf => exact ⟨rfl, rfl, rfl⟩
  | aff x y => obtain ⟨hx, hy⟩ := h x y rfl; simp [Holds, PointReg.ofPoint, Nat.mod_eq_of_lt hx, Nat.mod_eq_of_lt hy]

/-- A point command with one destination completes with it written and nothing else but `ERR` changed. -/
theorem command_completes_point {s : State} {b : Bool} {res : Except CmdError Point} {rd : PReg} {R : Point} (hb : b = true) (hr : res = .ok R)
   (hR : ∀ x y, R = .aff x y → x < 2 ^ s.cfg.W ∧ y < 2 ^ s.cfg.W) :
   ∃ r' : Regs s.cfg.W, command s b res (fun P => s.regs.setPoint rd P) = .next { s with regs := r' } ∧ r'.err = 0 ∧ Holds r'.pr[rd] R ∧ SameButPoints [rd] s.regs r' := by
  refine ⟨_, command_of_ok hb hr, rfl, ?_, sameButPoints_setPoint _ _ _ _⟩
  simpa using holds_ofPoint hR

end Sys2Proof.Machine
end

