-- ==== Sys2Proof/Laws/Errors.lean ====
section
/-! SUPPORT. Which error each function can signal (spec/60_exceptions.md R190), that results stay in range, and that a command always answers
a next state. -/

namespace Sys2Proof.Machine

theorem inverse_error {a p e} (h : inverse a p = .error e) : e = .noInverse := by
  unfold inverse at h; dsimp only at h; split at h <;> cases h; rfl

theorem add_error {P Q a p e} (h : add P Q a p = .error e) : e = .noInverse := by
  unfold add at h
  split at h
  · cases h
  · cases h
  · split at h
    · cases h
    · split at h
      · have := except_map_error h; exact inverse_error (except_map_error this)
      · have := except_map_error h; exact inverse_error (except_map_error this)

theorem multiplyLoop_error {a p n R run k e} (h : multiplyLoop a p n R run k = .error e) : e = .noInverse := by
  induction n generalizing R run k with
  | zero => cases h
  | succ n ih =>
    unfold multiplyLoop at h
    split at h
    · cases h
    · rcases except_bind_error h with h | ⟨v, hv, h⟩
      · split at h
        · exact add_error h
        · cases h
      · rcases except_bind_error h with h | ⟨v, hv, h⟩
        · exact add_error h
        · exact ih h

theorem multiply_error {P k a p e} (h : multiply P k a p = .error e) : e = .noInverse := multiplyLoop_error h

theorem encrypt_error {M Q G a p k e} (h : encrypt M Q G a p k = .error e) : e = .noInverse := by
  rcases except_bind_error h with h | ⟨v, hv, h⟩
  · exact multiply_error h
  rcases except_bind_error h with h | ⟨v, hv, h⟩
  · exact multiply_error h
  · exact add_error (except_map_error h)

theorem decrypt_error {C1 C2 d a p e} (h : decrypt C1 C2 d a p = .error e) : e = .noInverse := by
  rcases except_bind_error h with h | ⟨v, hv, h⟩
  · exact multiply_error h
  · exact add_error h

theorem searchWindow_error {a b p n x e} (h : searchWindow a b p n x = .error e) : e = .encodingFailure := by
  induction n generalizing x with
  | zero => cases h; rfl
  | succ n ih => unfold searchWindow at h; split at h; cases h; exact ih h

theorem negate_inRange {P p} (hp : 1 ≤ p) (h : P.inRange p = true) : (negate P p).inRange p = true := by
  cases P with
  | inf => rfl
  | aff x y => simp only [negate, Point.inRange, Bool.and_eq_true, decide_eq_true_eq] at *; exact ⟨h.1, modP_lt hp⟩

/-- The sum of two points in range is in range. -/
theorem add_inRange {P Q R : Point} {a p : Nat} (hp : 1 ≤ p) (hP : P.inRange p = true) (hQ : Q.inRange p = true) (h : add P Q a p = .ok R) : R.inRange p = true := by
  have tp : ∀ x1 y1 x2 m, (thirdPoint x1 y1 x2 p m).inRange p = true := by
    intro x1 y1 x2 m; simp [thirdPoint, Point.inRange, modP_lt hp]
  unfold add at h
  split at h
  · cases h; exact hQ
  · cases h; exact hP
  · split at h
    · cases h; rfl
    · split at h
      · cases hs : tangentSlope _ _ a p <;> rw [hs] at h <;> cases h; exact tp ..
      · cases hs : chordSlope _ _ _ _ p <;> rw [hs] at h <;> cases h; exact tp ..

theorem multiplyLoop_inRange {a p} (hp : 1 ≤ p) (n : Nat) : ∀ R run k V, R.inRange p = true → run.inRange p = true → multiplyLoop a p n R run k = .ok V → V.inRange p = true := by
  induction n with
  | zero => intro R run k V h1 _ h; cases h; exact h1
  | succ n ih =>
    intro R run k V h1 h2 h
    by_cases h0 : k = 0
    · subst h0; rw [multiplyLoop_zero] at h; cases h; exact h1
    · rw [multiplyLoop_succ _ _ _ _ _ _ h0] at h
      obtain ⟨R', hR', h⟩ := except_bind_ok h
      obtain ⟨run', hr, h⟩ := except_bind_ok h
      refine ih _ _ _ _ ?_ (add_inRange hp h2 h2 hr) h
      split at hR'
      · exact add_inRange hp h1 h2 hR'
      · cases hR'; exact h1

theorem multiply_inRange {a p P k V} (hp : 1 ≤ p) (h : P.inRange p = true) (hm : multiply P k a p = .ok V) : V.inRange p = true :=
  multiplyLoop_inRange hp k .inf P k V rfl h hm

/-- A command changes registers only, and always answers. -/
theorem exec_total (i : Instr) (s : State) : ∃ r' : Regs s.cfg.W, exec i s = .next { s with regs := r' } := by
  cases i with
  | peq => exact ⟨_, rfl⟩
  | enc rd rd2 rs1 rs2 rs3 rk =>
    simp only [exec, execEnc]
    split
    · exact ⟨_, rfl⟩
    · rcases command_cases s _ _ _ with ⟨_, h⟩ | ⟨e, _, _, h⟩ | ⟨v, _, _, h⟩ <;> exact ⟨_, h⟩
  | _ => simp only [exec, execInv, execPadd, execPneg, execPmul, execEncode, execDec]; rcases command_cases s _ _ _ with ⟨_, h⟩ | ⟨e, _, _, h⟩ | ⟨v, _, _, h⟩ <;> exact ⟨_, h⟩

end Sys2Proof.Machine
end

