-- ==== Sys2Proof/Laws/PerInstr.lean ====
section
/-! SUPPORT. A fact about every command as syntax, one lemma per constructor: the word of a command matches the row R74 gives it, all
unused fields and `Z` zero, and the decoder's table finds that row by the word's own opcode field. -/

namespace Sys2Proof.Laws.WordMatchesRow

/-- The row of R74 a command belongs to. -/
def row : Instr → OpRow
  | .inv _ _ => ⟨.inv, 0x01, 0x01000000, 0xFF1FFE3F⟩
  | .padd _ _ _ => ⟨.padd, 0x02, 0x02000000, 0xFF1C0FFF⟩
  | .pneg _ _ => ⟨.pneg, 0x03, 0x03000000, 0xFF1C7FFF⟩
  | .pmul _ _ _ => ⟨.pmul, 0x04, 0x04000000, 0xFF1C7E3F⟩
  | .peq _ _ _ => ⟨.peq, 0x05, 0x05000000, 0xFF1C0FFF⟩
  | .encode _ _ => ⟨.encode, 0x06, 0x06000000, 0xFF1FFE3F⟩
  | .enc _ _ _ _ _ _ => ⟨.enc, 0x07, 0x07000000, 0xFF00003F⟩
  | .dec _ _ _ _ => ⟨.dec, 0x08, 0x08000000, 0xFF1C0E3F⟩

def Statement (i : Instr) : Prop :=
  rowOf (unpack (encode i)).opc = some (row i) ∧ encode i &&& (row i).mask = (row i).pattern

/-- The shape of every proof below: mask and pattern are packed fields, and masking is done field by field. -/
theorem of_fields (i : Instr) (m p : Fields) (hr : rowOf (fieldsOf i).opc = some (row i)) (hm : (row i).mask = pack m)
    (hp : (row i).pattern = pack p)
    (h : (⟨(fieldsOf i).opc &&& m.opc, (fieldsOf i).rd &&& m.rd, (fieldsOf i).rd2 &&& m.rd2, (fieldsOf i).rs1 &&& m.rs1,
      (fieldsOf i).rs2 &&& m.rs2, (fieldsOf i).rs3 &&& m.rs3, (fieldsOf i).rk &&& m.rk, (fieldsOf i).z &&& m.z⟩ : Fields) = p) :
    Statement i := by
  refine ⟨by rw [encode, unpack_pack]; exact hr, ?_⟩
  rw [encode, hm, hp, pack_and_pack, h]

theorem inv (rd rk : SReg) : Statement (.inv rd rk) :=
  of_fields _ ⟨0xFF, 0, 7, 7, 7, 7, 0, 0x3F⟩ ⟨0x01, 0, 0, 0, 0, 0, 0, 0⟩ rfl (by simp only [row]; decide) (by simp only [row]; decide)
    (by simp [fieldsOf])

theorem padd (rd rs1 rs2 : PReg) : Statement (.padd rd rs1 rs2) :=
  of_fields _ ⟨0xFF, 0, 7, 0, 0, 7, 7, 0x3F⟩ ⟨0x02, 0, 0, 0, 0, 0, 0, 0⟩ rfl (by simp only [row]; decide) (by simp only [row]; decide)
    (by simp [fieldsOf])

theorem pneg (rd rs1 : PReg) : Statement (.pneg rd rs1) :=
  of_fields _ ⟨0xFF, 0, 7, 0, 7, 7, 7, 0x3F⟩ ⟨0x03, 0, 0, 0, 0, 0, 0, 0⟩ rfl (by simp only [row]; decide) (by simp only [row]; decide)
    (by simp [fieldsOf])

theorem pmul (rd rs1 : PReg) (rk : SReg) : Statement (.pmul rd rs1 rk) :=
  of_fields _ ⟨0xFF, 0, 7, 0, 7, 7, 0, 0x3F⟩ ⟨0x04, 0, 0, 0, 0, 0, 0, 0⟩ rfl (by simp only [row]; decide) (by simp only [row]; decide)
    (by simp [fieldsOf])

theorem peq (rd : SReg) (rs1 rs2 : PReg) : Statement (.peq rd rs1 rs2) :=
  of_fields _ ⟨0xFF, 0, 7, 0, 0, 7, 7, 0x3F⟩ ⟨0x05, 0, 0, 0, 0, 0, 0, 0⟩ rfl (by simp only [row]; decide) (by simp only [row]; decide)
    (by simp [fieldsOf])

theorem encode (rd : PReg) (rk : SReg) : Statement (.encode rd rk) :=
  of_fields _ ⟨0xFF, 0, 7, 7, 7, 7, 0, 0x3F⟩ ⟨0x06, 0, 0, 0, 0, 0, 0, 0⟩ rfl (by simp only [row]; decide) (by simp only [row]; decide)
    (by simp [fieldsOf])

theorem enc (rd rd2 rs1 rs2 rs3 : PReg) (rk : SReg) : Statement (.enc rd rd2 rs1 rs2 rs3 rk) :=
  of_fields _ ⟨0xFF, 0, 0, 0, 0, 0, 0, 0x3F⟩ ⟨0x07, 0, 0, 0, 0, 0, 0, 0⟩ rfl (by simp only [row]; decide) (by simp only [row]; decide)
    (by simp [fieldsOf])

theorem dec (rd rs1 rs2 : PReg) (rk : SReg) : Statement (.dec rd rs1 rs2 rk) :=
  of_fields _ ⟨0xFF, 0, 7, 0, 0, 7, 0, 0x3F⟩ ⟨0x08, 0, 0, 0, 0, 0, 0, 0⟩ rfl (by simp only [row]; decide) (by simp only [row]; decide)
    (by simp [fieldsOf])

end Sys2Proof.Laws.WordMatchesRow
end

