-- ==== Sys2Proof/Machine/Pseudo.lean ====
section
/-! DEFINITION. The host's side of the notation of spec/30_encoding.md R81, R82: register names as indices, a command line as a write of
`CMD`, and the pseudo-instructions, each an exact alias. -/

namespace Sys2Proof.Machine

/-- The index of a register name (R30); the reserved indices have no name of their own and `0x3F` stands for them. -/
def indexOf : RegName → BitVec 6
  | .cmd => 0x00
  | .status => 0x01
  | .ca => 0x02
  | .cb => 0x03
  | .cp => 0x04
  | .sr i => BitVec.ofNat 6 (0x08 + i.val)
  | .tag i => BitVec.ofNat 6 (0x10 + 4 * i.val)
  | .x i => BitVec.ofNat 6 (0x11 + 4 * i.val)
  | .y i => BitVec.ofNat 6 (0x12 + 4 * i.val)
  | .reserved => 0x3F

/-- `wr REG, value` (R81); the port word is `DW` bits (R50). -/
def wrReg (c : Config) (n : RegName) (v : Nat) : Input c.DW := .write (indexOf n) (BitVec.ofNat c.DW v)

/-- `rd REG` (R81). -/
def rdReg (c : Config) (n : RegName) : Input c.DW := .read (indexOf n)

/-- A command line stands for `wr CMD, word` (R81). -/
def issue (c : Config) (i : Instr) : Input c.DW := wrReg c .cmd (encode i).toNat

/-- `pdbl pD, pA` is `padd pD, pA, pA` (R82). -/
def pdbl (d a : PReg) : Instr := .padd d a a

/-- `keygen pD, pG, sK` is `pmul pD, pG, sK` (R82, R175). -/
def keygen (d g : PReg) (k : SReg) : Instr := .pmul d g k

/-- `setpt pI, x, y` (R82). -/
def setpt (c : Config) (i : PReg) (x y : Nat) : List (Input c.DW) := [wrReg c (.x i) x, wrReg c (.y i) y, wrReg c (.tag i) 0]

/-- `setinf pI` (R82). -/
def setinf (c : Config) (i : PReg) : List (Input c.DW) := [wrReg c (.tag i) 1]

/-- `setcurve a, b, p` (R82). -/
def setcurve (c : Config) (a b p : Nat) : List (Input c.DW) := [wrReg c .ca a, wrReg c .cb b, wrReg c .cp p]

end Sys2Proof.Machine
end

