-- ==== Sys2Proof/Tests/Slice0.lean ====
section
/-! SUPPORT. The model's own tests, each on the numbers of spec/95_test_vectors.md (its vector named in the docstring), and for every
statement with hypotheses a witness that meets them. A test is one step on a small state. -/

namespace Sys2Proof.Tests

open Sys2Proof Sys2Proof.Machine

/-! ### Small states -/

/-- An engine of width 32 with the given registers. -/
def st (r : Regs 32) : State := { State.reset with regs := r }

/-- An engine of the smallest width, 8, with the given registers. -/
def st8 (r : Regs 8) : State := { State.resetOf Config.w8 with regs := r }

/-- Curve E97 of the spec's vectors, at any width. -/
def e97 {W : Nat} : Regs W := { (Regs.reset : Regs W) with ca := 2, cb := 3, cp := 97 }

/-- A curve given by its three parameters. -/
def curve (a b p : Nat) : Regs 32 := { (Regs.reset : Regs 32) with ca := BitVec.ofNat 32 a, cb := BitVec.ofNat 32 b, cp := BitVec.ofNat 32 p }

/-- E97 with a point in `PR0` and one in `PR1`. -/
def pts (P Q : Point) : Regs 32 := (e97.setPoint 0 P).setPoint 1 Q

/-- The registers of vectors X1 and Y1: `G`, `Q`, `M`, `C1`, `C2` in `PR0` to `PR4`, `d` and `k` in `SR0` and `SR1`. -/
def keyed : Regs 32 :=
  ((((pts (.aff 0 10) (.aff 10 76)).setPoint 2 (.aff 70 32)).setPoint 3 (.aff 80 10)).setPoint 4 (.aff 20 34)).setScalar 0 7 |>.setScalar 1 10

/-- The number a register reads as after a step. -/
def after (r : Result) (n : RegName) : Option Nat :=
  match r with
  | .next t => some (t.regs.read t.cfg.DW n).toNat
  | .fault f => nomatch f
  | .refused _ => none

/-- The error code after a step, and the tag and coordinates of one point register. -/
def pointAfter (r : Result) (i : PReg) : Option (Nat × Bool × Nat × Nat) :=
  match r with
  | .next t => some (t.regs.err.toNat, t.regs.pr[i].inf, t.regs.pr[i].x.toNat, t.regs.pr[i].y.toNat)
  | .fault f => nomatch f
  | .refused _ => none

/-- The words a step adds to the replies. -/
def answered (r : Result) : Option (List Nat) :=
  match r with
  | .next t => some (t.replies.map BitVec.toNat)
  | .fault f => nomatch f
  | .refused _ => none

/-- The state a step answers. -/
def nextOf : Result → Option State
  | .next t => some t
  | .fault f => nomatch f
  | .refused _ => none

/-- A state with one input pending. -/
def given (s : State) (i : Input s.cfg.DW) : State := { s with pending := [i] }

/-! ### WellFormed and Decode -/

/-- R77: `ENC` with one destination is not well formed; with two it is. -/
theorem test_wellformed_enc : wellFormed (.enc 1 1 2 3 4 5) = false ∧ wellFormed (.enc 0 1 2 3 4 5) = true := by decide

/-- R73: the other shapes have nothing to check. -/
theorem test_wellformed_rest : wellFormed (.inv 7 7) = true ∧ wellFormed (.padd 7 7 7) = true ∧ wellFormed (.dec 7 7 7 7) = true := by
  decide

/-- R71, R74: `inv s1, s0` field by field. -/
theorem test_decode_inv : decode 0b00000001_001_000_000_000_000_000_000000 = .ok (.inv 1 0) ∧ encode (.inv 1 0) = 0x01200000 := by decide

/-- R71, R74: `padd p2, p0, p1` field by field. -/
theorem test_decode_padd : decode 0b00000010_010_000_000_001_000_000_000000 = .ok (.padd 2 0 1) ∧ encode (.padd 2 0 1) = 0x02401000 := by
  decide

/-- R71, R74: `pneg p4, p1` field by field (the word of `pneg p4, p0`, `0x03800000`, with `RS1 = 1`). -/
theorem test_decode_pneg : decode 0b00000011_100_000_001_000_000_000_000000 = .ok (.pneg 4 1) ∧ encode (.pneg 4 0) = 0x03800000 := by decide

/-- R71, R74: `pmul p1, p2, s3` field by field. -/
theorem test_decode_pmul : decode 0b00000100_001_000_010_000_000_011_000000 = .ok (.pmul 1 2 3) ∧ encode (.pmul 1 0 0) = 0x04200000 := by
  decide

/-- R71, R74: `peq s3, p5, p2` field by field. -/
theorem test_decode_peq : decode 0b00000101_011_000_101_010_000_000_000000 = .ok (.peq 3 5 2) ∧ encode (.peq 3 5 2) = 0x0562A000 := by decide

/-- R71, R74: `encode p2, s2` field by field. -/
theorem test_decode_encode : decode 0b00000110_010_000_000_000_000_010_000000 = .ok (.encode 2 2) ∧ encode (.encode 2 2) = 0x06400080 := by
  decide

/-- R71, R74: `enc p3, p4, p2, p1, p0, s1` field by field. -/
theorem test_decode_enc :
    decode 0b00000111_011_100_010_001_000_001_000000 = .ok (.enc 3 4 2 1 0 1) ∧ encode (.enc 3 4 2 1 0 1) = 0x07711040 := by decide

/-- R71, R74: `dec p5, p3, p4, s0` field by field. -/
theorem test_decode_dec : decode 0b00001000_101_000_011_100_000_000_000000 = .ok (.dec 5 3 4 0) ∧ encode (.dec 5 3 4 0) = 0x08A1C000 := by
  decide

/-- L2.6: reserved opcodes (R75). -/
theorem test_decode_reserved : decode 0x00000000 = .error .reservedOpcode ∧ decode 0x09000000 = .error .reservedOpcode ∧
    decode 0xFF000000 = .error .reservedOpcode := by decide

/-- L2.6: a field that must be zero is not (R76). -/
theorem test_decode_unused : ([0x01200001, 0x01240000, 0x02401040, 0x03201000, 0x04201000, 0x05001040, 0x06408000, 0x08A1C200] : List CmdWord).all
    (fun w => decide (decode w = .error .nonzeroUnusedField)) = true := by rfl

/-- L2.6: `ENC` with one destination (R77), and the highest register numbers. -/
theorem test_decode_edges : decode 0x07000000 = .error .sameDestinations ∧ decode 0x07FFFFC0 = .error .sameDestinations ∧
    decode 0x07DFFFC0 = .ok (.enc 6 7 7 7 7 7) ∧ decode 0x01E001C0 = .ok (.inv 7 7) ∧ decode 0x05E3F000 = .ok (.peq 7 7 7) := by decide

/-- The table word of a row is decoded from its 32 bits. -/
theorem test_decode_table_word : decodeTableWord 32 0x08A1C000 = some (.dec 5 3 4 0) ∧ decodeTableWord 32 0x07000000 = none := by decide

/-! ### One step of each command -/

/-- I1: `inverse(12, 97) = 89`. -/
theorem test_inv : after (exec (.inv 1 0) (st (e97.setScalar 0 12))) (.sr 1) = some 89 := by decide

/-- I17: `gcd(6, 9) = 3`, so `ERR = 1`. -/
theorem test_inv_error : after (exec (.inv 1 0) (st ((curve 0 0 9).setScalar 0 6))) .status = some 1 := by decide

/-- A2: `(3,6) + (80,10) = (80,87)`, case 4 with a wrap. -/
theorem test_padd : pointAfter (exec (.padd 2 0 1) (st (pts (.aff 3 6) (.aff 80 10)))) 2 = some (0, false, 80, 87) := by decide

/-- P4, `padd p1, p1, p1` with `PR1 = (80,10)`: doubling with the destination as both sources (A7). -/
theorem test_padd_double : pointAfter (exec (pdbl 1 1) (st (pts .inf (.aff 80 10)))) 1 = some (0, false, 3, 91) := by decide

/-- G1: `negate((3,6)) = (3,91)`. -/
theorem test_pneg : pointAfter (exec (.pneg 1 0) (st (pts (.aff 3 6) .inf))) 1 = some (0, false, 3, 91) := by decide

/-- G3: `negate((30,0)) = (30,0)`. -/
theorem test_pneg_zero : pointAfter (exec (.pneg 1 0) (st (pts (.aff 30 0) .inf))) 1 = some (0, false, 30, 0) := by decide

/-- M9: `10 (0,10) = (80,10)`. -/
theorem test_pmul : pointAfter (exec (.pmul 1 0 0) (st ((pts (.aff 0 10) .inf).setScalar 0 10))) 1 = some (0, false, 80, 10) := by decide

/-- M19: the unused last doubling has no inverse modulo 15, so `ERR = 1` and the destination keeps `Inf`. -/
theorem test_pmul_last_doubling :
    pointAfter (exec (.pmul 1 0 0) (st (((curve 0 0 15).setPoint 0 (.aff 0 3)).setScalar 0 1))) 1 = some (1, true, 0, 0) := by decide

/-- Q7: no range check, integers compared. -/
theorem test_peq : after (exec (.peq 0 0 1) (st (pts (.aff 3 6) (.aff 100 6)))) (.sr 0) = some 0 := by decide

/-- Q5: two `Inf` registers are equal whatever their coordinates. -/
theorem test_peq_inf : after (exec (.peq 0 0 1) (st { e97 with pr := (e97.pr.set 0 ⟨true, 3, 6⟩).set 1 ⟨true, 0, 0⟩ })) (.sr 0) = some 1 := by
  decide

/-- E11: `x = 100 >= 97` is returned unreduced. -/
theorem test_encode : pointAfter (exec (.encode 2 0) (st (e97.setScalar 0 10))) 2 = some (0, false, 100, 6) := by decide

/-- E18: at `W = 8` the window of `m = 25` does not fit. -/
theorem test_encode_window : pointAfter (exec (.encode 2 0) (st8 (e97.setScalar 0 25))) 2 = some (4, true, 0, 0) := by decide

/-- X1: `C1 = (80,10)` goes to the first destination. -/
theorem test_enc : pointAfter (exec (.enc 5 6 2 1 0 1) (st keyed)) 5 = some (0, false, 80, 10) := by decide

/-- X1 with the destinations on top of two sources: `C2 = (20,34)` goes to the second destination. -/
theorem test_enc_in_place : pointAfter (exec (.enc 0 2 2 1 0 1) (st keyed)) 2 = some (0, false, 20, 34) := by decide

/-- Y1: the message comes back. -/
theorem test_dec : pointAfter (exec (.dec 5 3 4 0) (st keyed)) 5 = some (0, false, 70, 32) := by decide

/-- Y9: `C2 = (20,97)` is out of range, and the destination keeps what it held. -/
theorem test_dec_range : pointAfter (exec (.dec 2 3 4 0) (st (keyed.setPoint 4 (.aff 20 97)))) 2 = some (4, false, 70, 32) := by decide

/-! ### The port and reset -/

/-- S1: after reset every index reads 0 but the eight `TAG` indices, which read 1. -/
theorem test_reset_reads : ∀ idx : BitVec 6, answered (hostRead idx State.reset) =
    some [if 0x10 ≤ idx.toNat ∧ idx.toNat < 0x30 ∧ idx.toNat % 4 = 0 then 1 else 0] := by decide

/-- Registers that hold different numbers. -/
def distinct : Regs 32 where
  cmd := 0x07711040
  err := 3
  ca := 2
  cb := 4
  cp := 97
  sr := #v[11, 12, 13, 14, 15, 16, 17, 18]
  pr := #v[⟨false, 21, 31⟩, ⟨true, 22, 32⟩, ⟨true, 23, 33⟩, ⟨true, 24, 34⟩, ⟨true, 25, 35⟩, ⟨true, 26, 36⟩, ⟨true, 27, 37⟩, ⟨true, 28, 38⟩]

/-- R30: the indices at the ends of each row of the map, read in a state that holds a different number in each register. -/
theorem test_read_map : ∀ q ∈ ([(0x00, 0x07711040), (0x01, 3), (0x02, 2), (0x03, 4), (0x04, 97), (0x05, 0), (0x07, 0), (0x08, 11), (0x0F, 18),
      (0x10, 0), (0x11, 21), (0x12, 31), (0x13, 0), (0x2C, 1), (0x2D, 28), (0x2E, 38), (0x2F, 0), (0x30, 0), (0x3F, 0)] : List (BitVec 6 × Nat)),
    answered (hostRead q.1 (st distinct)) = some [q.2] := by decide

/-- S2, S3, S4: writes of `STATUS` and of reserved indices are ignored. -/
theorem test_write_ignored : ∀ idx ∈ ([0x01, 0x05, 0x07, 0x13, 0x2F, 0x30, 0x3F] : List (BitVec 6)),
    nextOf (hostWrite State.reset idx 0xFFFFFFFF) = some State.reset := by decide

/-- S5, S6: `TAG` takes bit 0 only. -/
theorem test_write_tag : after (hostWrite State.reset 0x10 0xFFFFFFFE) (.tag 0) = some 0 ∧
    after (hostWrite State.reset 0x2C 3) (.tag 7) = some 1 := by decide

/-- S7: `X` is kept while `INF = 1`, and a write of it leaves `INF` and `Y`. -/
theorem test_write_x : pointAfter (hostWrite State.reset 0x11 100) 0 = some (0, true, 100, 0) := by decide

/-- S8: an illegal word is stored in `CMD` and sets `ERR = 3`. -/
theorem test_write_cmd_illegal : after (step (State.reset.withFetchWord 32 0x09000000)) .cmd = some 0x09000000 ∧
    after (step (State.reset.withFetchWord 32 0x09000000)) .status = some 3 := by decide

/-- S9: the next command overwrites `ERR`; this one runs through the fetch of the interface. -/
theorem test_fetch_word : after (step ((st { (e97 : Regs 32) with err := 3 }).withFetchWord 32 0x05001000)) .status = some 0 ∧
    after (step (State.reset.withFetchWord 32 0x05001000)) (.sr 0) = some 1 := by decide

/-- S10: at `W = 8` a scalar register takes the low 8 bits. -/
theorem test_write_truncates : after (hostWrite (st8 Regs.reset) 0x08 0x1FF) (.sr 0) = some 0xFF := by decide

/-- S11: reset from a state with every kind of register changed. -/
theorem test_reset : nextOf (resetStep (st distinct)) = some State.reset := by decide

/-- R82: a command line is a write of `CMD`, and `setpt` ends with the tag. -/
theorem test_pseudo : issue Config.w32 (keygen 1 0 0) = .write 0 0x04200000 ∧
    setpt Config.w32 7 3 6 = [.write 0x2D 3, .write 0x2E 6, .write 0x2C 0] ∧ setinf Config.w32 0 = [.write 0x10 1] ∧
    setcurve Config.w32 2 3 97 = [.write 2 2, .write 3 3, .write 4 97] := by decide

/-! ### Witnesses: for every statement with hypotheses, a state and operands that meet them together -/

/-- A write of a 32-bit word to `CMD` pending on a reset engine. -/
def cmdGiven (w : BitVec 32) : State := given State.reset (.write 0 w)

theorem witness_DecodeOfEncodeIsTheCommand : WellFormed (.enc 3 4 2 1 0 1) := by decide

theorem witness_LegalWordIsTheEncodingOfItsCommand : decode 0x07DFFFC0 = .ok (.enc 6 7 7 7 7 7) := by decide

/-- The ends of both reserved ranges. -/
theorem witness_ReservedOpcodeRaisesIllegalCommand :
    ((cmdGiven 0).pending = [.write 0 (0 : BitVec 32)] ∧ opcode (0 : BitVec 32).toNat = 0) ∧
    ((cmdGiven 0x09000000).pending = [.write 0 (0x09000000 : BitVec 32)] ∧ 8 < opcode (0x09000000 : BitVec 32).toNat) ∧
    ((cmdGiven 0xFF000000).pending = [.write 0 (0xFF000000 : BitVec 32)] ∧ 8 < opcode (0xFF000000 : BitVec 32).toNat) := by decide

/-- A word of L2.6 for each clause, and two words of one command for the second part. -/
theorem witness_NonzeroUnusedFieldRaisesIllegalCommand :
    ((cmdGiven 0x01200001).pending = [.write 0 (0x01200001 : BitVec 32)] ∧ UnusedFieldNonzero (0x01200001 : BitVec 32).toNat) ∧
    UnusedFieldNonzero 0x01240000 ∧ UnusedFieldNonzero 0x02401040 ∧ UnusedFieldNonzero 0x03201000 ∧ UnusedFieldNonzero 0x04201000 ∧
    UnusedFieldNonzero 0x05001040 ∧ UnusedFieldNonzero 0x06408000 ∧ UnusedFieldNonzero 0x08A1C200 ∧ ¬ UnusedFieldNonzero 0x07DFFFC0 ∧
    decode 0x01200000 = .ok (.inv 1 0) := by
  refine ⟨⟨by decide, ?_⟩, ?_, ?_, ?_, ?_, ?_, ?_, ?_, ?_, by decide⟩ <;> (unfold UnusedFieldNonzero; decide)

theorem witness_EncWithOneDestinationRaisesIllegalCommand :
    (cmdGiven 0x07FFFFC0).pending = [.write 0 (0x07FFFFC0 : BitVec 32)] ∧ opcode (0x07FFFFC0 : BitVec 32).toNat = 7 ∧
    field3 (0x07FFFFC0 : BitVec 32).toNat 21 = field3 (0x07FFFFC0 : BitVec 32).toNat 18 := by decide

/-- A legal and an illegal word, each written. -/
theorem witness_EveryWordIsACommandOrIllegal :
    (encode (.inv 1 0) = 0x01200000 ∧ (cmdGiven 0x01200000).pending = [.write 0 (0x01200000 : BitVec 32)] ∧
      BitVec.ofNat 32 (0x01200000 : BitVec 32).toNat = 0x01200000) ∧
    (decode 0x09000000 = .error .reservedOpcode ∧ (cmdGiven 0x09000000).pending = [.write 0 (0x09000000 : BitVec 32)] ∧
      BitVec.ofNat 32 (0x09000000 : BitVec 32).toNat = 0x09000000) := by decide

theorem witness_StepRunsTheDecodedCommand : (cmdGiven 0x08A1C000).pending = [.write 0 (0x08A1C000 : BitVec 32)] ∧
    decode (BitVec.ofNat 32 (0x08A1C000 : BitVec 32).toNat) = .ok (.dec 5 3 4 0) := by decide

/-- The first and the last index of each clause of `PortValue`. -/
theorem witness_ReadAnswersTheRegister : (given (st distinct) (.read 0x2F)).pending = [.read 0x2F] ∧
    (0x0F : BitVec 6).toNat = 0x08 + (7 : SReg).val ∧ (0x2C : BitVec 6).toNat = 0x10 + 4 * (7 : PReg).val ∧
    (0x2D : BitVec 6).toNat = 0x11 + 4 * (7 : PReg).val ∧ (0x2E : BitVec 6).toNat = 0x12 + 4 * (7 : PReg).val ∧
    (0x2F : BitVec 6).toNat = 0x13 + 4 * (7 : PReg).val ∧ 0x30 ≤ (0x30 : BitVec 6).toNat ∧ (0x07 : BitVec 6).toNat ≤ 0x07 := by decide

/-- No index falls under two clauses of `PortValue` or `PortStores`. -/
theorem witness_port_clauses_exclusive : ∀ i j : Fin 8, 0x08 + i.val < 0x10 ∧ 0x07 < 0x08 + i.val ∧ 0x10 ≤ 0x10 + 4 * i.val ∧
    0x13 + 4 * i.val < 0x30 ∧ (0x10 + 4 * i.val ≠ 0x11 + 4 * j.val) ∧ (0x10 + 4 * i.val ≠ 0x12 + 4 * j.val) ∧
    (0x10 + 4 * i.val ≠ 0x13 + 4 * j.val) ∧ (0x11 + 4 * i.val ≠ 0x12 + 4 * j.val) ∧ (0x11 + 4 * i.val ≠ 0x13 + 4 * j.val) ∧
    (0x12 + 4 * i.val ≠ 0x13 + 4 * j.val) := by decide

/-- `CMD`, and another index. -/
theorem witness_WriteStoresTheLowBits :
    ((given (st distinct) (.write 0 (0x05001000 : BitVec 32))).pending = [.write 0 (0x05001000 : BitVec 32)] ∧ (0 : BitVec 6).toNat = 0) ∧
    ((given (st distinct) (.write 0x2E (7 : BitVec 32))).pending = [.write 0x2E (7 : BitVec 32)] ∧ (0x2E : BitVec 6).toNat ≠ 0) := by decide

theorem witness_ReservedIndexHoldsNoState :
    (ReservedIndex (0x05 : BitVec 6).toNat ∧ ReservedIndex (0x07 : BitVec 6).toNat ∧ ReservedIndex (0x13 : BitVec 6).toNat ∧
      ReservedIndex (0x2F : BitVec 6).toNat ∧ ReservedIndex (0x30 : BitVec 6).toNat ∧ ReservedIndex (0x3F : BitVec 6).toNat) ∧
    (given State.reset (.read 0x13)).pending = [.read 0x13] ∧
    (given State.reset (.write 0x13 (7 : BitVec 32))).pending = [.write 0x13 (7 : BitVec 32)] := by
  unfold ReservedIndex; decide

/-- The same index and another one; an index of each kind. -/
theorem witness_ReadAfterWrite :
    (({ State.reset with pending := [.write 0x08 (0x1FF : BitVec 32), .read 0x08] } : State).pending = [.write 0x08 (0x1FF : BitVec 32), .read 0x08] ∧
      (0x08 : BitVec 6).toNat ≠ 0 ∧ 8 ≤ (0x08 : BitVec 6).toNat) ∧
    (({ State.reset with pending := [.write 0x10 (3 : BitVec 32), .read 0x2C] } : State).pending = [.write 0x10 (3 : BitVec 32), .read 0x2C] ∧
      (0x2C : BitVec 6) ≠ 0x10) ∧
    ((0x02 : BitVec 6).toNat = 2 ∧ (0x2D : BitVec 6).toNat % 4 = 1 ∧ (0x2E : BitVec 6).toNat % 4 = 2 ∧ (0x2C : BitVec 6).toNat % 4 = 0 ∧
      (0x01 : BitVec 6).toNat = 1 ∧ ReservedIndex (0x13 : BitVec 6).toNat) := by
  unfold ReservedIndex; decide

theorem witness_ResetInputRestoresEveryRegister : (given (st distinct) .reset).pending = [.reset] := by decide

/-- `CP` at 0 and at 1, the two values below 2. -/
theorem witness_UnconfiguredEngineRefusesToCompute :
    (WellFormed (.inv 1 0) ∧ (∀ rd rs1 rs2, Instr.inv 1 0 ≠ .peq rd rs1 rs2) ∧ State.reset.regs.cp.toNat < 2) ∧
    (WellFormed (.enc 0 1 0 0 0 0) ∧ (st (curve 0 0 1)).regs.cp.toNat < 2) := by
  exact ⟨⟨by decide, fun _ _ _ => nofun, by decide⟩, by decide⟩

/-- The three cases: a read, another input, and none. -/
theorem witness_StepAlwaysAnswersAndTakesOneInput : (given State.reset (.read 0)).pending = [.read 0] ∧
    (∀ idx rest, (given State.reset .reset).pending ≠ .read idx :: rest) ∧ State.reset.pending = [] := by
  refine ⟨rfl, fun idx rest h => ?_, rfl⟩
  exact nomatch (List.cons.inj h).1

theorem witness_OnlyCmdWritesAndResetChangeErr : ∃ t, step (given (st distinct) (.write 0x04 (2 : BitVec 32))) = .next t ∧
    (∀ v rest, (given (st distinct) (.write 0x04 (2 : BitVec 32))).pending ≠ .write 0 v :: rest) ∧
    ∀ rest, (given (st distinct) (.write 0x04 (2 : BitVec 32))).pending ≠ .reset :: rest := by
  refine ⟨_, rfl, fun v rest h => ?_, fun rest h => nomatch (List.cons.inj h).1⟩
  have h1 := (List.cons.inj h).1
  injection h1 with h2
  exact absurd h2 (by decide)

/-- A state in the second clause of the invariant (`ERR = 3` under an illegal word), and the reset state in the first. -/
theorem witness_ErrMatchesCmdIsKept :
    (ErrMatchesCmd (st { (e97 : Regs 32) with cmd := 0x09000000, err := 3 }) ∧
      ∃ t, step (st { (e97 : Regs 32) with cmd := 0x09000000, err := 3 }) = .next t) ∧
    (ErrMatchesCmd (cmdGiven 0x01200000) ∧ ∃ t, step (cmdGiven 0x01200000) = .next t ∧ t.regs.err = 4) :=
  ⟨⟨.inr rfl, _, rfl⟩, .inl (by decide), _, rfl, by decide⟩

/-- A command that ends with an error code. -/
theorem witness_CommandIsAllOrNothing : ∃ r' : Regs 32, exec (.inv 1 0) (st e97) = .next { st e97 with regs := r' } ∧ r'.err ≠ 0 :=
  ⟨_, rfl, by decide⟩

theorem witness_OnlyEncodeReadsCB : ∀ rd rk, Instr.dec 5 3 4 0 ≠ .encode rd rk := fun _ _ => nofun

/-- `CA = 99` and `CB = 100` in place of 2 and 3 modulo 97. -/
theorem witness_CoefficientsMatterOnlyModuloP : (99 : Word 32).toNat % (st e97).regs.cp.toNat = (st e97).regs.ca.toNat % (st e97).regs.cp.toNat ∧
    (100 : Word 32).toNat % (st e97).regs.cp.toNat = (st e97).regs.cb.toNat % (st e97).regs.cp.toNat := by decide

/-- Other coordinates under `INF = 1`, the same under `INF = 0`. -/
theorem witness_CoordinatesOfInfAreIgnored : SameUpToInf (st distinct).regs { distinct with pr := distinct.pr.set 7 ⟨true, 5, 5⟩ } ∧
    ({ distinct with pr := distinct.pr.set 7 ⟨true, 5, 5⟩ } : Regs 32) ≠ distinct := by
  unfold SameUpToInf; decide

/-- A command R193 turns away, one case for each of (a) to (c), and one it does not. -/
theorem witness_OperandRangeIsRaisedExactly :
    (WellFormed (.inv 1 0) ∧ RangeFails (st (curve 0 0 1)).regs (.inv 1 0)) ∧
    (WellFormed (.padd 2 0 1) ∧ RangeFails (st (pts .inf (.aff 3 97))).regs (.padd 2 0 1)) ∧
    (WellFormed (.encode 2 0) ∧ RangeFails (st (e97.setScalar 0 429496729)).regs (.encode 2 0)) ∧
    ¬ RangeFails (st (e97.setScalar 0 429496728)).regs (.encode 2 0) ∧ ¬ RangeFails (st (pts .inf (.aff 96 96))).regs (.padd 2 0 1) := by
  unfold RangeFails OutOfRange; decide

theorem witness_InverseMeetsItsContract : (2 ≤ 97 ∧ Nat.gcd 12 97 = 1 ∧ 12 * 89 % 97 = 1) ∧ (2 ≤ 9 ∧ 1 < Nat.gcd 6 9) := by decide

/-- The smallest modulus, for the statements that ask for `2 <= p` only, and an operand at `p - 1` for the last bound. -/
theorem witness_EuclidKeepsItsInvariants : 2 ≤ 2 := by decide

theorem witness_EuclidEndsWithinItsBound : 2 ≤ 97 ∧ 96 < 97 := by decide

theorem witness_InverseDependsOnTheResidueOnly : 2 ≤ 97 ∧ 100 % 97 = 3 := by decide

theorem witness_InvWritesTheInverse : 2 ≤ (st (e97.setScalar 0 12)).regs.cp.toNat ∧
    Nat.gcd (st (e97.setScalar 0 12)).regs.sr[(0 : SReg)].toNat (st (e97.setScalar 0 12)).regs.cp.toNat = 1 := by decide

/-- The operand 0, and I17. -/
theorem witness_InvRaisesNoInverse :
    (2 ≤ (st e97).regs.cp.toNat ∧ Nat.gcd (st e97).regs.sr[(0 : SReg)].toNat (st e97).regs.cp.toNat ≠ 1) ∧
    (2 ≤ (st ((curve 0 0 9).setScalar 0 6)).regs.cp.toNat ∧
      Nat.gcd (st ((curve 0 0 9).setScalar 0 6)).regs.sr[(0 : SReg)].toNat (st ((curve 0 0 9).setScalar 0 6)).regs.cp.toNat ≠ 1) := by decide

/-- Both clauses: an affine point with the largest legal coordinates, and `Inf`. -/
theorem witness_PnegWritesTheNegation : 2 ≤ (st (pts (.aff 96 96) .inf)).regs.cp.toNat ∧ ¬ OutOfRange (st (pts (.aff 96 96) .inf)).regs 0 ∧
    (st (pts (.aff 96 96) .inf)).regs.pr[(0 : PReg)].inf = false ∧ ¬ OutOfRange (st (pts (.aff 96 96) .inf)).regs 1 ∧
    (st (pts (.aff 96 96) .inf)).regs.pr[(1 : PReg)].inf = true := by
  unfold OutOfRange; decide

theorem witness_NegationIsTheGroupInverse : ∀ x y, Point.aff 3 6 = .aff x y → y < 97 := by
  intro x y h; injection h; omega

theorem witness_AddTakesItsFirstTwoCases : (6 + 91) % 97 = 0 ∧ (0 + 0) % 97 = 0 := by decide

theorem witness_AddDoublesByTheTangent : 2 ≤ 97 ∧ Nat.gcd (2 * 6 % 97) 97 = 1 := by decide

theorem witness_AddJoinsDistinctPointsByTheChord : 2 ≤ 97 ∧ Int.gcd (((80 : Nat) : Int) - (3 : Nat)) (97 : Nat) = 1 := by decide

/-- A pair without its inverse (A18), a pair with it, and the prime. -/
theorem witness_AddRaisesNoInverseExactly : 2 ≤ 97 ∧ ¬ AddDefined 97 (.aff 3 6) (.aff 3 7) ∧ AddDefined 97 (.aff 3 6) (.aff 80 10) ∧
    add (.aff 3 6) (.aff 3 7) 2 97 = .error .noInverse ∧ Nat.Prime 97 ∧ (Point.aff 3 6).inRange 97 = true ∧ (Point.aff 3 7).inRange 97 = true :=
  ⟨by decide, by unfold AddDefined; decide, by unfold AddDefined; decide, by decide, by norm_num, by decide, by decide⟩

theorem witness_PaddWritesTheSum : 2 ≤ (st (pts (.aff 3 6) (.aff 80 10))).regs.cp.toNat ∧ ¬ OutOfRange (st (pts (.aff 3 6) (.aff 80 10))).regs 0 ∧
    ¬ OutOfRange (st (pts (.aff 3 6) (.aff 80 10))).regs 1 ∧
    AddDefined (st (pts (.aff 3 6) (.aff 80 10))).regs.cp.toNat ((st (pts (.aff 3 6) (.aff 80 10))).regs.point 0)
      ((st (pts (.aff 3 6) (.aff 80 10))).regs.point 1) :=
  ⟨by decide, by unfold OutOfRange; decide, by unfold OutOfRange; decide, by
    show AddDefined 97 (.aff 3 6) (.aff 80 10); unfold AddDefined; decide⟩

theorem witness_PaddRaisesNoInverse : 2 ≤ (st (pts (.aff 3 6) (.aff 3 7))).regs.cp.toNat ∧ ¬ OutOfRange (st (pts (.aff 3 6) (.aff 3 7))).regs 0 ∧
    ¬ OutOfRange (st (pts (.aff 3 6) (.aff 3 7))).regs 1 ∧
    ¬ AddDefined (st (pts (.aff 3 6) (.aff 3 7))).regs.cp.toNat ((st (pts (.aff 3 6) (.aff 3 7))).regs.point 0)
      ((st (pts (.aff 3 6) (.aff 3 7))).regs.point 1) :=
  ⟨by decide, by unfold OutOfRange; decide, by unfold OutOfRange; decide, by
    show ¬ AddDefined 97 (.aff 3 6) (.aff 3 7); unfold AddDefined; decide⟩

theorem witness_AddIsCommutative : 2 ≤ 97 ∧ (Point.aff 3 6).inRange 97 = true ∧ (Point.aff 80 10).inRange 97 = true := by decide

theorem prime_97 : Nat.Prime 97 := by norm_num

theorem goodCurve_e97 : GoodCurve 2 3 97 := ⟨prime_97, by decide, by decide⟩

theorem witness_CurveIsClosedUnderAdd : Nat.Prime 97 ∧ OnCurve 2 3 97 (.aff 3 6) ∧ OnCurve 2 3 97 (.aff 80 10) :=
  ⟨prime_97, by unfold OnCurve; decide, by unfold OnCurve; decide⟩

theorem witness_CommandsOnTheCurveComplete : WellFormed (.enc 5 6 2 1 0 1) ∧ pointSources (.enc 5 6 2 1 0 1) ≠ [] ∧
    (st keyed).regs.cp.toNat.Prime ∧ ∀ q ∈ pointSources (.enc 5 6 2 1 0 1),
      OnCurve (st keyed).regs.ca.toNat (st keyed).regs.cb.toNat (st keyed).regs.cp.toNat ((st keyed).regs.point q) := by
  refine ⟨by decide, by decide, prime_97, fun q hq => ?_⟩
  simp only [pointSources, List.mem_cons, List.not_mem_nil, or_false] at hq
  rcases hq with rfl | rfl | rfl
  · show OnCurve 2 3 97 (.aff 70 32); unfold OnCurve; decide
  · show OnCurve 2 3 97 (.aff 10 76); unfold OnCurve; decide
  · show OnCurve 2 3 97 (.aff 0 10); unfold OnCurve; decide

/-- The first bound that is enough for `k = 10`, and the last iteration before it. -/
theorem witness_MultiplyEndsAfterBitlenIterations : bitlen 10 ≤ 4 ∧ 3 < bitlen 10 := by decide

theorem witness_MultiplyFollowsDoubleAndAdd : 10 ≠ 0 := by decide

theorem witness_MultiplyMakesEveryDoubling : multiply (.aff 0 10) 10 2 97 = .ok (.aff 80 10) := by decide

/-- Both clauses: the doubling exists, and it does not (M19). -/
theorem witness_MultiplyBySmallScalars : add (.aff 3 6) (.aff 3 6) 2 97 = .ok (.aff 80 10) ∧
    add (.aff 0 3) (.aff 0 3) 0 15 = .error .noInverse := by decide

theorem witness_MultiplyIsLinear : GoodCurve 2 3 97 ∧ OnCurve 2 3 97 (.aff 0 10) := ⟨goodCurve_e97, by unfold OnCurve; decide⟩

/-- Both clauses: M9 and M19. -/
theorem witness_PmulWritesTheMultiple :
    (2 ≤ (st ((pts (.aff 0 10) .inf).setScalar 0 10)).regs.cp.toNat ∧ ¬ OutOfRange (st ((pts (.aff 0 10) .inf).setScalar 0 10)).regs 0 ∧
      multiply ((st ((pts (.aff 0 10) .inf).setScalar 0 10)).regs.point 0) 10 2 97 = .ok (.aff 80 10)) ∧
    (2 ≤ (st (((curve 0 0 15).setPoint 0 (.aff 0 3)).setScalar 0 1)).regs.cp.toNat ∧
      ¬ OutOfRange (st (((curve 0 0 15).setPoint 0 (.aff 0 3)).setScalar 0 1)).regs 0 ∧
      multiply ((st (((curve 0 0 15).setPoint 0 (.aff 0 3)).setScalar 0 1)).regs.point 0) 1 0 15 = .error .noInverse) := by
  unfold OutOfRange; decide

/-- E8: the first point of the window of `m = 7` on E97. -/
theorem firstPoint_e8 : FirstPoint 7 2 3 97 70 32 := by
  refine ⟨by decide, by decide, by unfold IsRoot; decide, fun x' _ h h' => absurd h' (by omega), ?_⟩
  have h : ∀ y' < 32, ¬ (y' < 97 ∧ y' * y' % 97 = (70 * 70 * 70 + 2 * 70 + 3) % 97) := by decide
  exact h

/-- E13: the window of `m = 1` has no root on the curve `1, 7, 103`. -/
theorem noRoot_e13 : ∀ x y, 10 * 1 ≤ x → x ≤ 10 * 1 + 9 → ¬ IsRoot 1 7 103 x y := by
  intro x y h1 h2 h
  have hx : firstRoot 103 (curveRhs x 1 7 103) 103 0 = none := by interval_cases x <;> rfl
  have key : ∀ n y0, firstRoot 103 (curveRhs x 1 7 103) n y0 = none → ∀ y, y0 ≤ y → y < y0 + n → y * y % 103 ≠ curveRhs x 1 7 103 := by
    intro n
    induction n with
    | zero => intros; omega
    | succ n ih =>
      intro y0 hn y hy hy'
      unfold firstRoot at hn
      split at hn
      · cases hn
      · rcases Nat.eq_or_lt_of_le hy with rfl | hlt
        · assumption
        · exact ih (y0 + 1) hn y hlt (by omega)
  exact key 103 0 hx y (by omega) (by have := h.1; omega) h.2

theorem witness_EncodeWritesTheFirstPoint : 2 ≤ (st (e97.setScalar 0 7)).regs.cp.toNat ∧
    10 * (st (e97.setScalar 0 7)).regs.sr[(0 : SReg)].toNat + 9 < 2 ^ (st (e97.setScalar 0 7)).cfg.W ∧
    FirstPoint (st (e97.setScalar 0 7)).regs.sr[(0 : SReg)].toNat (st (e97.setScalar 0 7)).regs.ca.toNat
      (st (e97.setScalar 0 7)).regs.cb.toNat (st (e97.setScalar 0 7)).regs.cp.toNat 70 32 :=
  ⟨by decide, by decide, firstPoint_e8⟩

theorem witness_EncodeRaisesEncodingFailure : 2 ≤ (st ((curve 1 7 103).setScalar 0 1)).regs.cp.toNat ∧
    10 * (st ((curve 1 7 103).setScalar 0 1)).regs.sr[(0 : SReg)].toNat + 9 < 2 ^ (st ((curve 1 7 103).setScalar 0 1)).cfg.W ∧
    ∀ x y, 10 * (st ((curve 1 7 103).setScalar 0 1)).regs.sr[(0 : SReg)].toNat ≤ x →
      x ≤ 10 * (st ((curve 1 7 103).setScalar 0 1)).regs.sr[(0 : SReg)].toNat + 9 →
      ¬ IsRoot (st ((curve 1 7 103).setScalar 0 1)).regs.ca.toNat (st ((curve 1 7 103).setScalar 0 1)).regs.cb.toNat
        (st ((curve 1 7 103).setScalar 0 1)).regs.cp.toNat x y :=
  ⟨by decide, by decide, noRoot_e13⟩

/-- Both parts of both statements about the encoder are met: a window with a first point, and one without a root. -/
theorem witness_EncoderFailsExactlyWithoutRoot : encodeMsg 7 2 3 97 = .ok (.aff 70 32) ∧ encodeMsg 1 1 7 103 = .error .encodingFailure := by
  decide

/-- The registers of M19: `PR0 = (0,3)` modulo 15 with `k = 1`, whose doubling has no inverse; the other point registers hold `Inf`. -/
def m19 : Regs 32 := ((curve 0 0 15).setPoint 0 (.aff 0 3)).setScalar 0 1

/-- The points of A18 in `PR0` and `PR1`, whose sum has no inverse, with 1 in `SR0`. -/
def a18 : Regs 32 := (pts (.aff 3 6) (.aff 3 7)).setScalar 0 1

/-- X1 for the first clause; for the second the first multiple fails, the second one fails, and the sum fails. -/
theorem witness_EncWritesThePair :
    ((5 : PReg) ≠ 6 ∧ 2 ≤ (st keyed).regs.cp.toNat ∧ ¬ OutOfRange (st keyed).regs 2 ∧ ¬ OutOfRange (st keyed).regs 1 ∧ ¬ OutOfRange (st keyed).regs 0 ∧
      multiply (.aff 0 10) 10 2 97 = .ok (.aff 80 10) ∧ multiply (.aff 10 76) 10 2 97 = .ok (.aff 3 91) ∧
      add (.aff 70 32) (.aff 3 91) 2 97 = .ok (.aff 20 34)) ∧
    (2 ≤ (st m19).regs.cp.toNat ∧ (∀ i ∈ ([0, 1, 2] : List PReg), ¬ OutOfRange (st m19).regs i) ∧
      multiply ((st m19).regs.point 0) (st m19).regs.sr[(0 : SReg)].toNat (st m19).regs.ca.toNat (st m19).regs.cp.toNat = .error .noInverse ∧
      multiply ((st m19).regs.point 1) (st m19).regs.sr[(0 : SReg)].toNat (st m19).regs.ca.toNat (st m19).regs.cp.toNat = .ok .inf) ∧
    (2 ≤ (st a18).regs.cp.toNat ∧ (∀ i ∈ ([0, 1, 2] : List PReg), ¬ OutOfRange (st a18).regs i) ∧
      multiply ((st a18).regs.point 1) (st a18).regs.sr[(0 : SReg)].toNat (st a18).regs.ca.toNat (st a18).regs.cp.toNat = .ok (.aff 3 7) ∧
      add ((st a18).regs.point 0) (.aff 3 7) (st a18).regs.ca.toNat (st a18).regs.cp.toNat = .error .noInverse) := by
  unfold OutOfRange; decide

/-- Y1 for the first clause; for the second the multiple fails, and the sum fails. -/
theorem witness_DecWritesTheMessage :
    (2 ≤ (st keyed).regs.cp.toNat ∧ ¬ OutOfRange (st keyed).regs 3 ∧ ¬ OutOfRange (st keyed).regs 4 ∧
      multiply (.aff 80 10) 7 2 97 = .ok (.aff 3 91) ∧ add (.aff 20 34) (negate (.aff 3 91) 97) 2 97 = .ok (.aff 70 32)) ∧
    (2 ≤ (st m19).regs.cp.toNat ∧ (∀ i ∈ ([0, 1] : List PReg), ¬ OutOfRange (st m19).regs i) ∧
      multiply ((st m19).regs.point 0) (st m19).regs.sr[(0 : SReg)].toNat (st m19).regs.ca.toNat (st m19).regs.cp.toNat = .error .noInverse) ∧
    (2 ≤ (st a18).regs.cp.toNat ∧ (∀ i ∈ ([0, 1] : List PReg), ¬ OutOfRange (st a18).regs i) ∧
      multiply ((st a18).regs.point 1) (st a18).regs.sr[(0 : SReg)].toNat (st a18).regs.ca.toNat (st a18).regs.cp.toNat = .ok (.aff 3 7) ∧
      add ((st a18).regs.point 0) (negate (.aff 3 7) (st a18).regs.cp.toNat) (st a18).regs.ca.toNat (st a18).regs.cp.toNat =
        .error .noInverse) := by
  unfold OutOfRange; decide

theorem witness_DecryptUndoesEncrypt : GoodCurve 2 3 97 ∧ OnCurve 2 3 97 (.aff 70 32) ∧ OnCurve 2 3 97 (.aff 0 10) ∧
    multiply (.aff 0 10) 7 2 97 = .ok (.aff 10 76) :=
  ⟨goodCurve_e97, by unfold OnCurve; decide, by unfold OnCurve; decide, by decide⟩

theorem witness_KeygenEncDecRecoverTheMessage : (1 : PReg) ≠ 0 ∧ (1 : PReg) ≠ 2 ∧ (3 : PReg) ≠ 4 ∧
    GoodCurve (st keyed).regs.ca.toNat (st keyed).regs.cb.toNat (st keyed).regs.cp.toNat ∧
    OnCurve (st keyed).regs.ca.toNat (st keyed).regs.cb.toNat (st keyed).regs.cp.toNat ((st keyed).regs.point 0) ∧
    OnCurve (st keyed).regs.ca.toNat (st keyed).regs.cb.toNat (st keyed).regs.cp.toNat ((st keyed).regs.point 2) := by
  refine ⟨by decide, by decide, by decide, goodCurve_e97, ?_, ?_⟩
  · show OnCurve 2 3 97 (.aff 0 10); unfold OnCurve; decide
  · show OnCurve 2 3 97 (.aff 70 32); unfold OnCurve; decide

end Sys2Proof.Tests
end

/-! ### The meaning of a command as a function on the registers -/

namespace Sys2Proof.Machine

/-- What a completed command writes, named by its destinations (R73, R84). -/
inductive Writeback where
  | scalar (rd : SReg) (v : Nat)
  | point (rd : PReg) (P : Point)
  | points (rd rd2 : PReg) (P Q : Point)

section
variable {W : Nat}

/-- The registers with the destinations written. -/
def Writeback.apply (r : Regs W) : Writeback → Regs W
  | .scalar rd v => r.setScalar rd v
  | .point rd P => r.setPoint rd P
  | .points rd rd2 P Q => (r.setPoint rd P).setPoint rd2 Q

/-- The range check of a command (R193). -/
def rangeOk (r : Regs W) : Instr → Bool
  | .inv _ _ => r.modulusOk
  | .padd _ rs1 rs2 => r.modulusOk && r.pointOk rs1 && r.pointOk rs2
  | .pneg _ rs1 => r.modulusOk && r.pointOk rs1
  | .pmul _ rs1 _ => r.modulusOk && r.pointOk rs1
  | .peq _ _ _ => true
  | .encode _ rk => r.modulusOk && r.windowOk rk
  | .enc _ _ rs1 rs2 rs3 _ => r.modulusOk && r.pointOk rs1 && r.pointOk rs2 && r.pointOk rs3
  | .dec _ rs1 rs2 _ => r.modulusOk && r.pointOk rs1 && r.pointOk rs2

/-- The function of a command on its source registers (R73). -/
def compute (r : Regs W) : Instr → Except CmdError Writeback
  | .inv rd rk => (inverse (r.scalar rk) r.modulus).map (.scalar rd)
  | .padd rd rs1 rs2 => (add (r.point rs1) (r.point rs2) r.coeffA r.modulus).map (.point rd)
  | .pneg rd rs1 => .ok (.point rd (negate (r.point rs1) r.modulus))
  | .pmul rd rs1 rk => (multiply (r.point rs1) (r.scalar rk) r.coeffA r.modulus).map (.point rd)
  | .peq rd rs1 rs2 => .ok (.scalar rd (if peq (r.point rs1) (r.point rs2) then 1 else 0))
  | .encode rd rk => (encodeMsg (r.scalar rk) r.coeffA r.coeffB r.modulus).map (.point rd)
  | .enc rd rd2 rs1 rs2 rs3 rk =>
    (encrypt (r.point rs1) (r.point rs2) (r.point rs3) r.coeffA r.modulus (r.scalar rk)).map
      fun C => .points rd rd2 C.1 C.2
  | .dec rd rs1 rs2 rk =>
    (decrypt (r.point rs1) (r.point rs2) (r.scalar rk) r.coeffA r.modulus).map (.point rd)

/-- How a command ends: with an error, checked in the order of R195, or with what it writes. -/
def outcome (r : Regs W) (i : Instr) : Except CmdError Writeback :=
  if wellFormed i then if rangeOk r i then compute r i else .error .operandRange else .error .illegalCommand

/-- The registers after a command that ends so: all or nothing, and `ERR` (R84, R194). -/
def finish (r : Regs W) : Except CmdError Writeback → Regs W
  | .ok w => (w.apply r).setErr noError
  | .error e => r.setErr e.code

end

/-- The template of R84 for a function whose result is named by its destinations. -/
theorem command_eq_finish {α : Type} (s : State) (inRange : Bool) (result : Except CmdError α) (f : α → Writeback) :
    command s inRange result (fun v => (f v).apply s.regs) =
      .next { s with regs := finish s.regs (if inRange then result.map f else .error .operandRange) } := by
  cases inRange with
  | false => rfl
  | true => cases result <;> rfl

/-- Every command is the template of R84 around its range check and its function, so it always answers a next state in which
only the registers differ. -/
theorem exec_eq_finish (i : Instr) (s : State) : exec i s = .next { s with regs := finish s.regs (outcome s.regs i) } := by
  cases i with
  | peq rd rs1 rs2 => rfl
  | pneg rd rs1 => exact command_eq_finish s _ (.ok _) (.point rd)
  | inv rd rk => exact command_eq_finish s _ _ (.scalar rd)
  | padd rd rs1 rs2 => exact command_eq_finish s _ _ (.point rd)
  | pmul rd rs1 rk => exact command_eq_finish s _ _ (.point rd)
  | encode rd rk => exact command_eq_finish s _ _ (.point rd)
  | dec rd rs1 rs2 rk => exact command_eq_finish s _ _ (.point rd)
  | enc rd rd2 rs1 rs2 rs3 rk =>
    by_cases hd : rd = rd2
    · simp [exec, execEnc, outcome, wellFormed, hd, raise_eq, finish]
    · have hw : wellFormed (.enc rd rd2 rs1 rs2 rs3 rk) = true := by simpa [wellFormed] using hd
      simp only [exec, execEnc, outcome, if_neg hd, if_pos hw]
      exact command_eq_finish s _ _ (fun C : Point × Point => .points rd rd2 C.1 C.2)

/-! ### What the end of a command leaves -/

section
variable {W : Nat} (r : Regs W) (o : Except CmdError Writeback)

/-- No end of a command writes `CMD` or a curve parameter. -/
theorem finish_keeps_parameters :
    (finish r o).cmd = r.cmd ∧ (finish r o).ca = r.ca ∧ (finish r o).cb = r.cb ∧ (finish r o).cp = r.cp := by
  rcases o with e | ⟨rd, v⟩ | ⟨rd, P⟩ | ⟨rd, rd2, P, Q⟩ <;> exact ⟨rfl, rfl, rfl, rfl⟩

/-- The end of a command overwrites `ERR` whatever it was. -/
theorem finish_setErr (e : BitVec 4) : finish (r.setErr e) o = finish r o := by
  rcases o with e | ⟨rd, v⟩ | ⟨rd, P⟩ | ⟨rd, rd2, P, Q⟩ <;> rfl

/-- `CB` passes through the end of a command. -/
theorem finish_with_cb (b : Word W) : finish { r with cb := b } o = { finish r o with cb := b } := by
  rcases o with e | ⟨rd, v⟩ | ⟨rd, P⟩ | ⟨rd, rd2, P, Q⟩ <;> rfl

/-- So do both coefficients together. -/
theorem finish_with_coefficients (a b : Word W) :
    finish { r with ca := a, cb := b } o = { finish r o with ca := a, cb := b } := by
  rcases o with e | ⟨rd, v⟩ | ⟨rd, P⟩ | ⟨rd, rd2, P, Q⟩ <;> rfl

end

end Sys2Proof.Machine

/-! ### What one step can do -/

namespace Sys2Proof.Machine

/-- Everything a step can do: idle, a read, a write of `CMD`, a write of another index, or a reset. -/
theorem step_cases {s t : State} (h : step s = .next t) :
    t = s ∨
    (∃ idx rest replies, s.pending = .read idx :: rest ∧ t = { s with pending := rest, replies := replies }) ∨
    (∃ v rest, s.pending = .write 0 v :: rest ∧ executeWord (v.setWidth 32) { s with pending := rest } = .next t) ∨
    (∃ idx v rest, s.pending = .write idx v :: rest ∧ idx ≠ 0 ∧
      t = { s with pending := rest, regs := s.regs.write (regAt idx) v }) ∨
    ∃ rest, s.pending = .reset :: rest ∧ t = { s with pending := rest, regs := Regs.reset } := by
  rcases hp : s.pending with _ | ⟨i, rest⟩
  · rw [step_of_idle s hp] at h
    cases h
    exact .inl rfl
  rw [step_of_pending s i rest hp] at h
  cases i with
  | read idx =>
    cases h
    exact .inr (.inl ⟨idx, rest, _, rfl, rfl⟩)
  | write idx v =>
    by_cases h0 : idx = 0
    · subst h0
      exact .inr (.inr (.inl ⟨v, rest, rfl, h⟩))
    · have hw := hostWrite_of_ne_cmd { s with pending := rest } idx v h0
      cases hw.symm.trans h
      exact .inr (.inr (.inr (.inl ⟨idx, v, rest, rfl, h0, rfl⟩)))
  | reset =>
    cases h
    exact .inr (.inr (.inr (.inr ⟨rest, rfl, rfl⟩)))

/-- A step leaves `ERR` and `CMD`, or executes a word written to `CMD`, or resets the registers. -/
theorem step_err_cmd {s t : State} (h : step s = .next t) :
    (t.regs.err = s.regs.err ∧ t.regs.cmd = s.regs.cmd) ∨
    (∃ v rest, s.pending = .write 0 v :: rest ∧ executeWord (v.setWidth 32) { s with pending := rest } = .next t) ∨
    ∃ rest, s.pending = .reset :: rest ∧ t.regs.err = 0 ∧ t.regs.cmd = 0 := by
  rcases step_cases h with rfl | ⟨_, _, _, _, rfl⟩ | hcmd | ⟨idx, v, _, _, h0, rfl⟩ | ⟨rest, hp, rfl⟩
  · exact .inl ⟨rfl, rfl⟩
  · exact .inl ⟨rfl, rfl⟩
  · exact .inr (.inl hcmd)
  · exact .inl (write_keeps_err_cmd s.regs (regAt idx) v (mt (regAt_cmd_iff idx).1 h0))
  · exact .inr (.inr ⟨rest, hp, rfl, rfl⟩)

/-! ### `ERR` is a code that R190 gives the word in `CMD` -/

/-- The errors R190 lists for the function of a command. -/
theorem compute_error {W : Nat} {r : Regs W} {i : Instr} {e : CmdError} (h : compute r i = .error e) :
    (e = .noInverse ∧ mayRaiseNoInverse i = true) ∨ (e = .encodingFailure ∧ mayRaiseEncodingFailure i = true) := by
  cases i with
  | inv => exact .inl ⟨inverse_error (except_map_error h), rfl⟩
  | padd => exact .inl ⟨add_error (except_map_error h), rfl⟩
  | pneg => cases h
  | pmul => exact .inl ⟨multiply_error (except_map_error h), rfl⟩
  | peq => cases h
  | encode => exact .inr ⟨searchWindow_error (except_map_error h), rfl⟩
  | enc => exact .inl ⟨encrypt_error (except_map_error h), rfl⟩
  | dec => exact .inl ⟨decrypt_error (except_map_error h), rfl⟩

/-- `PEQ` is the one command without a range check. -/
theorem mayRaiseOperandRange_of_not_rangeOk {W : Nat} {r : Regs W} {i : Instr} (h : rangeOk r i = false) :
    mayRaiseOperandRange i = true := by
  cases i with
  | peq => cases h
  | _ => rfl

/-- What the decoder assembles is well-formed: it refuses `ENC` with equal destination fields (R77). -/
theorem wellFormed_of_assemble {op : Opcode} {f : Fields} {i : Instr} (h : assemble op f = .ok i) : wellFormed i = true := by
  cases op with
  | enc =>
    by_cases hd : f.rd = f.rd2
    · simp [assemble, hd] at h
    · simp only [assemble, if_neg hd, Except.ok.injEq] at h
      have hne : regOfField f.rd ≠ regOfField f.rd2 := fun he => hd (congrArg fieldOfReg he)
      simpa [← h, wellFormed] using hne
  | _ =>
    cases h
    rfl

/-- A word that decodes stands for a well-formed command. -/
theorem wellFormed_of_decode {w : CmdWord} {i : Instr} (h : decode w = .ok i) : wellFormed i = true := by
  obtain ⟨_, _, _, _, hi⟩ := decode_ok h
  exact wellFormed_of_assemble hi

/-- A command leaves in `ERR` a code that R190 gives its word. -/
theorem codeFits_finish_outcome {W : Nat} (r : Regs W) {w : CmdWord} {i : Instr} (h : decode w = .ok i) :
    CodeFits w (finish r (outcome r i)).err := by
  have hfits : ∀ c, CodeFits w c ↔ c = 0 ∨ (c = 1 ∧ mayRaiseNoInverse i = true) ∨
      (c = 2 ∧ mayRaiseEncodingFailure i = true) ∨ (c = 4 ∧ mayRaiseOperandRange i = true) := by
    intro c
    simp only [CodeFits, h]
  rw [hfits, outcome, if_pos (wellFormed_of_decode h)]
  cases hr : rangeOk r i with
  | false => exact .inr (.inr (.inr ⟨rfl, mayRaiseOperandRange_of_not_rangeOk hr⟩))
  | true =>
    cases hc : compute r i with
    | ok _ => exact .inl rfl
    | error e =>
      rcases compute_error hc with ⟨rfl, hm⟩ | ⟨rfl, hm⟩
      · exact .inr (.inl ⟨rfl, hm⟩)
      · exact .inr (.inr (.inl ⟨rfl, hm⟩))

/-- Executing a word leaves it in `CMD` with a code that R190 gives it in `ERR`. -/
theorem codeFits_of_executeWord {w : CmdWord} {s t : State} (h : executeWord w s = .next t) :
    t.regs.cmd = w ∧ CodeFits w t.regs.err := by
  cases hd : decode w with
  | error e =>
    rw [executeWord_of_error s hd, raise_eq] at h
    cases h
    refine ⟨rfl, ?_⟩
    simp only [CodeFits, hd]
    rfl
  | ok i =>
    rw [executeWord_of_ok s hd, exec_eq_finish] at h
    cases h
    exact ⟨(finish_keeps_parameters _ _).1, codeFits_finish_outcome _ hd⟩

/-- Settles O18, by what a step can do to `ERR` and `CMD`: keep both, execute a word, or reset them. -/
theorem errMatchesCmdIsKept : Obligations.ErrMatchesCmdIsKept := by
  intro s t hs hstep
  rcases step_err_cmd hstep with ⟨herr, hcmd⟩ | ⟨v, rest, _, hx⟩ | ⟨rest, _, herr, hcmd⟩
  · rwa [ErrMatchesCmd, herr, hcmd]
  · obtain ⟨hcmd, hfits⟩ := codeFits_of_executeWord hx
    exact .inr (hcmd ▸ hfits)
  · exact .inl ⟨hcmd, herr⟩

/-- Settles O19: no command has run. -/
theorem errMatchesCmdAfterReset : Obligations.ErrMatchesCmdAfterReset :=
  ⟨.inl ⟨rfl, rfl⟩, fun _ => .inl ⟨rfl, rfl⟩⟩

/-- Settles O17, by what a step can do to `ERR` and `CMD`: only executing a word and reset touch them. -/
theorem onlyCmdWritesAndResetChangeErr : Obligations.OnlyCmdWritesAndResetChangeErr := by
  intro s t hstep hwrite hreset
  rcases step_err_cmd hstep with hkept | ⟨v, rest, hp, _⟩ | ⟨rest, hp, _⟩
  · exact hkept
  · exact absurd hp (hwrite v rest)
  · exact absurd hp (hreset rest)

end Sys2Proof.Machine

/-! ### What a command depends on -/

namespace Sys2Proof.Machine

section
variable {a a' b b' p : Nat}

theorem tangentSlope_congr (h : a' ≡ a [MOD p]) (x1 y1 : Nat) : tangentSlope x1 y1 a' p = tangentSlope x1 y1 a p := by
  unfold tangentSlope
  congr 1
  funext v
  exact (h.add_left (3 * x1 * x1)).mul_right v

theorem add_congr (h : a' ≡ a [MOD p]) (P Q : Point) : add P Q a' p = add P Q a p := by
  cases P <;> cases Q <;> simp only [add, tangentSlope_congr h]

theorem multiplyLoop_congr (h : a' ≡ a [MOD p]) (n : Nat) (R running : Point) (k : Nat) :
    multiplyLoop a' p n R running k = multiplyLoop a p n R running k := by
  induction n generalizing R running k with
  | zero => rfl
  | succ n ih => simp only [multiplyLoop, add_congr h, ih]

theorem multiply_congr (h : a' ≡ a [MOD p]) (P : Point) (k : Nat) : multiply P k a' p = multiply P k a p :=
  multiplyLoop_congr h k .inf P k

theorem encrypt_congr (h : a' ≡ a [MOD p]) (M Q G : Point) (k : Nat) : encrypt M Q G a' p k = encrypt M Q G a p k := by
  simp only [encrypt, multiply_congr h, add_congr h]

theorem decrypt_congr (h : a' ≡ a [MOD p]) (C1 C2 : Point) (d : Nat) : decrypt C1 C2 d a' p = decrypt C1 C2 d a p := by
  simp only [decrypt, multiply_congr h, add_congr h]

theorem curveRhs_congr (ha : a' ≡ a [MOD p]) (hb : b' ≡ b [MOD p]) (x : Nat) : curveRhs x a' b' p = curveRhs x a b p :=
  ((ha.mul_right x).add_left (x * x * x)).add hb

theorem searchWindow_congr (ha : a' ≡ a [MOD p]) (hb : b' ≡ b [MOD p]) (n x : Nat) :
    searchWindow a' b' p n x = searchWindow a b p n x := by
  induction n generalizing x with
  | zero => rfl
  | succ n ih => simp only [searchWindow, curveRhs_congr ha hb, ih]

theorem encodeMsg_congr (ha : a' ≡ a [MOD p]) (hb : b' ≡ b [MOD p]) (m : Nat) : encodeMsg m a' b' p = encodeMsg m a b p :=
  searchWindow_congr ha hb 10 (10 * m)

end

section
variable {W : Nat}

/-- Two register files in which the command `i` sees the same operands: the same integers and points, and coefficients congruent
modulo `CP`, where `CB` is an operand of `ENCODE` only (R26). -/
structure SameOperands (i : Instr) (r q : Regs W) : Prop where
  modulus : q.modulus = r.modulus
  scalar : ∀ j, q.scalar j = r.scalar j
  point : ∀ j, q.point j = r.point j
  coeffA : q.coeffA ≡ r.coeffA [MOD r.modulus]
  coeffB : ∀ rd rk, i = .encode rd rk → q.coeffB ≡ r.coeffB [MOD r.modulus]

variable {i : Instr} {r q : Regs W}

theorem SameOperands.rangeOk_eq (h : SameOperands i r q) : rangeOk q i = rangeOk r i := by
  have hm : q.modulusOk = r.modulusOk := by simp only [Regs.modulusOk, h.modulus]
  have hp : ∀ j, q.pointOk j = r.pointOk j := fun j => by simp only [Regs.pointOk, h.point, h.modulus]
  have hw : ∀ j, q.windowOk j = r.windowOk j := fun j => by simp only [Regs.windowOk, h.scalar]
  cases i <;> simp only [rangeOk, hm, hp, hw]

theorem SameOperands.compute_eq (h : SameOperands i r q) : compute q i = compute r i := by
  cases i with
  | inv => simp only [compute, h.scalar, h.modulus]
  | padd => simp only [compute, h.point, h.modulus, add_congr h.coeffA]
  | pneg => simp only [compute, h.point, h.modulus]
  | pmul => simp only [compute, h.point, h.scalar, h.modulus, multiply_congr h.coeffA]
  | peq => simp only [compute, h.point]
  | encode rd rk => simp only [compute, h.scalar, h.modulus, encodeMsg_congr h.coeffA (h.coeffB rd rk rfl)]
  | enc => simp only [compute, h.point, h.scalar, h.modulus, encrypt_congr h.coeffA]
  | dec => simp only [compute, h.point, h.scalar, h.modulus, decrypt_congr h.coeffA]

/-- A command ends the same way for the same operands. -/
theorem SameOperands.outcome_eq (h : SameOperands i r q) : outcome q i = outcome r i := by
  simp only [outcome, h.rangeOk_eq, h.compute_eq]

end

/-- Settles O20: however a command ends, its parameters stay. -/
theorem noCommandWritesItsParameters : Obligations.NoCommandWritesItsParameters := fun i s =>
  ⟨_, exec_eq_finish i s, finish_keeps_parameters s.regs (outcome s.regs i)⟩

/-- Settles O22: `ERR` is no operand, and the end of a command overwrites it. -/
theorem noCommandReadsErr : Obligations.NoCommandReadsErr := by
  intro i s e
  have hops : SameOperands i s.regs (s.regs.setErr e) :=
    ⟨rfl, fun _ => rfl, fun _ => rfl, .refl _, fun _ _ _ => .refl _⟩
  have hregs : finish (s.regs.setErr e) (outcome (s.regs.setErr e) i) = finish s.regs (outcome s.regs i) := by
    rw [hops.outcome_eq, finish_setErr]
  rw [exec_eq_finish i s, ← hregs]
  exact exec_eq_finish i { s with regs := s.regs.setErr e }

/-- Settles O23: `CB` is no operand of any other command. -/
theorem onlyEncodeReadsCB : Obligations.OnlyEncodeReadsCB := by
  intro i s v hi
  have hops : SameOperands i s.regs { s.regs with cb := v } :=
    ⟨rfl, fun _ => rfl, fun _ => rfl, .refl _, fun rd rk he => absurd he (hi rd rk)⟩
  refine ⟨_, exec_eq_finish i s, ?_⟩
  rw [exec_eq_finish, hops.outcome_eq, finish_with_cb]

/-- Settles O24: coefficients congruent modulo `CP` are the same operands. -/
theorem coefficientsMatterOnlyModuloP : Obligations.CoefficientsMatterOnlyModuloP := by
  intro i s a b ha hb
  have hops : SameOperands i s.regs { s.regs with ca := a, cb := b } :=
    ⟨rfl, fun _ => rfl, fun _ => rfl, ha, fun _ _ _ => hb⟩
  refine ⟨_, exec_eq_finish i s, ?_⟩
  rw [exec_eq_finish, hops.outcome_eq, finish_with_coefficients]

section
variable {W : Nat} {r q : Regs W}

/-- Point registers that differ at most under `INF = 1` hold the same point value (R28). -/
theorem SameUpToInf.point_eq (h : SameUpToInf r q) (j : PReg) : q.point j = r.point j := by
  obtain ⟨-, -, -, -, -, -, hpr⟩ := h
  obtain ⟨hinf, haff⟩ := hpr j
  cases hj : r.pr[j].inf with
  | true => rw [point_of_inf hj, point_of_inf (hinf.trans hj)]
  | false => simp only [Regs.point, haff hj]

/-- So no command tells them apart by its operands. -/
theorem SameUpToInf.sameOperands (h : SameUpToInf r q) (i : Instr) : SameOperands i r q := by
  have hpoint := h.point_eq
  obtain ⟨-, -, hca, hcb, hcp, hsr, -⟩ := h
  exact {
    modulus := congrArg BitVec.toNat hcp
    scalar := fun j => by simp only [Regs.scalar, hsr]
    point := hpoint
    coeffA := congrArg (fun a : Word W => a.toNat % r.modulus) hca
    coeffB := fun _ _ _ => congrArg (fun b : Word W => b.toNat % r.modulus) hcb }

theorem SameUpToInf.setErr (h : SameUpToInf r q) (e : BitVec 4) : SameUpToInf (r.setErr e) (q.setErr e) := by
  obtain ⟨hcmd, -, hca, hcb, hcp, hsr, hpr⟩ := h
  exact ⟨hcmd, rfl, hca, hcb, hcp, hsr, hpr⟩

theorem SameUpToInf.setScalar (h : SameUpToInf r q) (i : SReg) (v : Nat) : SameUpToInf (r.setScalar i v) (q.setScalar i v) := by
  obtain ⟨hcmd, herr, hca, hcb, hcp, hsr, hpr⟩ := h
  exact ⟨hcmd, herr, hca, hcb, hcp, congrArg (·.set i (BitVec.ofNat W v)) hsr, hpr⟩

theorem SameUpToInf.setPoint (h : SameUpToInf r q) (i : PReg) (P : Point) : SameUpToInf (r.setPoint i P) (q.setPoint i P) := by
  obtain ⟨hcmd, herr, hca, hcb, hcp, hsr, hpr⟩ := h
  refine ⟨hcmd, herr, hca, hcb, hcp, hsr, fun j => ?_⟩
  by_cases hij : i = j
  · subst hij
    simp
  · have hne : i.val ≠ j.val := fun hv => hij (Fin.ext hv)
    simpa [Vector.getElem_set_ne _ _ hne] using hpr j

theorem SameUpToInf.finish (h : SameUpToInf r q) (o : Except CmdError Writeback) : SameUpToInf (finish r o) (finish q o) := by
  rcases o with e | ⟨rd, v⟩ | ⟨rd, P⟩ | ⟨rd, rd2, P, Q⟩
  · exact h.setErr e.code
  · exact (h.setScalar rd v).setErr noError
  · exact (h.setPoint rd P).setErr noError
  · exact ((h.setPoint rd P).setPoint rd2 Q).setErr noError

end

/-- Settles O25: registers that differ under `INF = 1` hold the same operands, and the same writes keep them so. -/
theorem coordinatesOfInfAreIgnored : Obligations.CoordinatesOfInfAreIgnored := by
  intro i s q h
  have hq := exec_eq_finish i { s with regs := q }
  rw [(h.sameOperands i).outcome_eq] at hq
  exact ⟨_, _, exec_eq_finish i s, hq, h.finish _⟩

end Sys2Proof.Machine

/-! ### Where the inverse exists, and with it the sum -/

namespace Sys2Proof.Machine

/-- An iteration keeps the gcd of the two remainders (R102). -/
theorem euclidStep_gcd (e : Euclid) : Nat.gcd (euclidStep e).r (euclidStep e).newr = Nat.gcd e.r e.newr := by
  simp only [euclidStep, ← Nat.mod_eq_sub_div_mul]
  rw [Nat.gcd_comm e.newr, ← Nat.gcd_rec, Nat.gcd_comm]

theorem euclidLoop_gcd (n : Nat) (e : Euclid) : Nat.gcd (euclidLoop n e).r (euclidLoop n e).newr = Nat.gcd e.r e.newr := by
  induction n generalizing e with
  | zero => rfl
  | succ n ih =>
    unfold euclidLoop
    split
    · rfl
    · rw [ih, euclidStep_gcd]

/-- The loop of `inverse` ends with the gcd of the operands as its remainder (R103). -/
theorem euclidLoop_r (a p : Nat) : (euclidLoop a (euclidInit a p)).r = Nat.gcd a p := by
  have hgcd := euclidLoop_gcd a (euclidInit a p)
  rw [euclidLoop_ends (le_refl a), Nat.gcd_zero_right] at hgcd
  rw [hgcd, Nat.gcd_comm a p]
  rfl

/-- An operand coprime to the modulus has an inverse (R100). -/
theorem inverse_ok_of_coprime {a p : Nat} (h : Nat.gcd a p = 1) : ∃ t, inverse a p = .ok t := by
  simp [inverse, euclidLoop_r, h]

theorem except_map_ok {α β ε : Type} {x : Except ε α} (f : α → β) (h : ∃ v, x = .ok v) : ∃ w, x.map f = .ok w := by
  obtain ⟨v, rfl⟩ := h
  exact ⟨f v, rfl⟩

theorem tangentSlope_ok {y1 p : Nat} (x1 a : Nat) (h : Nat.gcd (2 * y1 % p) p = 1) : ∃ m, tangentSlope x1 y1 a p = .ok m :=
  except_map_ok _ (inverse_ok_of_coprime h)

theorem gcd_modP {x : Int} {p : Nat} (hp : 1 ≤ p) : Nat.gcd (modP x p) p = Int.gcd x p := by
  have hmod : (modP x p : Int) % p = x % p := modP_eq hp
  rw [← Int.gcd_natCast_natCast, ← Int.gcd_emod, hmod, Int.gcd_emod]

theorem chordSlope_ok {x1 x2 p : Nat} (y1 y2 : Nat) (hp : 1 ≤ p) (h : Int.gcd ((x2 : Int) - x1) p = 1) :
    ∃ m, chordSlope x1 y1 x2 y2 p = .ok m :=
  except_map_ok _ (inverse_ok_of_coprime ((gcd_modP hp).trans h))

/-- An addition that needs no inverse, or has the one it needs, returns (R125 to R128, R130). -/
theorem add_ok_of_addDefined {P Q : Point} {p : Nat} (a : Nat) (hp : 1 ≤ p) (h : AddDefined p P Q) :
    ∃ R, add P Q a p = .ok R := by
  rcases P with _ | ⟨x1, y1⟩
  · exact ⟨Q, by rw [add]⟩
  rcases Q with _ | ⟨x2, y2⟩
  · exact ⟨_, rfl⟩
  by_cases hinf : x1 = x2 ∧ (y1 + y2) % p = 0
  · exact ⟨.inf, by rw [add, if_pos hinf]⟩
  rcases h with h | ⟨hx, hy, hgcd⟩ | ⟨hne, hgcd⟩
  · exact absurd h hinf
  · rw [add, if_neg hinf, if_pos ⟨hx, hy⟩]
    exact except_map_ok _ (tangentSlope_ok x1 a hgcd)
  · rw [add, if_neg hinf, if_neg hne]
    exact except_map_ok _ (chordSlope_ok y1 y2 hp hgcd)

/-! ### The point commands that complete -/

/-- A source register that passes the range check holds a point in range. -/
theorem point_inRange {W : Nat} {r : Regs W} {i : PReg} (h : ¬ OutOfRange r i) : (r.point i).inRange r.cp.toNat = true :=
  pointOk_of_not_outOfRange h

/-- The range check of a command with one source point. -/
theorem modulusOk_and_pointOk {W : Nat} {r : Regs W} {i : PReg} (hp : 2 ≤ r.cp.toNat) (h : ¬ OutOfRange r i) :
    (r.modulusOk && r.pointOk i) = true := by
  rw [modulusOk_of_le hp, pointOk_of_not_outOfRange h]
  rfl

/-- The negation on numbers below the modulus, without integers (R122). -/
theorem modP_sub {y p : Nat} (h : y ≤ p) : modP ((p : Int) - y) p = (p - y) % p := by
  rw [modP, ← Nat.cast_sub h, ← Int.natCast_mod, Int.toNat_natCast]

/-- Settles O34: `PNEG` computes without an error, and the range of `y` takes its subtraction to the natural numbers. -/
theorem pnegWritesTheNegation : Obligations.PnegWritesTheNegation := by
  intro s rd rs1 hp h1
  have hrange := point_inRange h1
  have hfits := fits_of_inRange (negate_inRange (by omega) hrange)
  obtain ⟨r', hexec, herr, hholds, hframe⟩ := command_completes_point (rd := rd) (modulusOk_and_pointOk hp h1) rfl hfits
  refine ⟨r', hexec, herr, fun hinf => ?_, fun haff => ?_, hframe⟩
  · rwa [point_of_inf hinf] at hholds
  · rw [point_of_aff haff] at hrange hholds
    simp only [Point.inRange, Bool.and_eq_true, decide_eq_true_eq] at hrange
    rwa [negate, modP_sub hrange.2.le] at hholds

/-- Settles O40: a defined addition returns, in range of the registers. -/
theorem paddWritesTheSum : Obligations.PaddWritesTheSum := by
  intro s rd rs1 rs2 hp h1 h2 hdef
  have hp1 : 1 ≤ s.regs.cp.toNat := by omega
  obtain ⟨R, hR⟩ := add_ok_of_addDefined s.regs.ca.toNat hp1 hdef
  have hfits := fits_of_inRange (add_inRange hp1 (point_inRange h1) (point_inRange h2) hR)
  have hok : (s.regs.modulusOk && s.regs.pointOk rs1 && s.regs.pointOk rs2) = true := by
    rw [modulusOk_and_pointOk hp h1, pointOk_of_not_outOfRange h2]
    rfl
  obtain ⟨r', hcompletes⟩ := command_completes_point (rd := rd) hok hR hfits
  exact ⟨R, r', hR, hcompletes⟩

/-- Settles O50: a multiple of a point in range is in range, and `NoInverse` is the one error of `multiply`. -/
theorem pmulWritesTheMultiple : Obligations.PmulWritesTheMultiple := by
  intro s rd rs1 rk hp h1
  refine ⟨fun R hR => ?_, fun e he => ?_⟩
  · have hfits := fits_of_inRange (multiply_inRange (by omega) (point_inRange h1) hR)
    exact command_completes_point (modulusOk_and_pointOk hp h1) hR hfits
  · obtain rfl := multiply_error he
    exact command_of_error (modulusOk_and_pointOk hp h1) he

/-! ### Reserved indices and reset -/

/-- Settles O11: the index map names no register there. -/
theorem reservedIndexHoldsNoState : Obligations.ReservedIndexHoldsNoState := by
  intro s idx rest hidx
  have hreg : regAt idx = .reserved := regAt_of_reserved idx hidx
  refine ⟨fun hp => ?_, fun v hp => ?_⟩
  · rw [step_of_pending s _ rest hp, accept, hostRead_eq, hreg]
    rfl
  · rw [step_of_pending s _ rest hp, accept, hostWrite, hreg]
    rfl

section
variable {W : Nat}

theorem Regs.reset_sr (i : SReg) : (Regs.reset : Regs W).sr[i] = 0 := by
  simp [Regs.reset]

/-- Every point register is `Inf` in canonical form after reset (R35). -/
theorem Regs.reset_pr (i : PReg) :
    (Regs.reset : Regs W).pr[i].inf = true ∧ (Regs.reset : Regs W).pr[i].x = 0 ∧ (Regs.reset : Regs W).pr[i].y = 0 := by
  simp [Regs.reset]

end

/-- Settles O13: the step puts `Regs.reset` in place of the registers. -/
theorem resetInputRestoresEveryRegister : Obligations.ResetInputRestoresEveryRegister := by
  intro s rest hp
  have hstep : step s = .next { s with pending := rest, regs := Regs.reset } := step_of_pending s .reset rest hp
  exact ⟨Regs.reset, hstep, rfl, rfl, rfl, rfl, rfl, Regs.reset_sr, Regs.reset_pr⟩

/-- Settles O14, field by field of `Regs.reset`. -/
theorem resetStateHoldsTheResetValues : Obligations.ResetStateHoldsTheResetValues :=
  ⟨rfl, rfl, fun _ => ⟨rfl, rfl, rfl, rfl, rfl, rfl, rfl, rfl, Regs.reset_sr, Regs.reset_pr⟩⟩

end Sys2Proof.Machine

/-! ### The register port: one access, one step -/

namespace Sys2Proof.Machine

section
variable {s : State} {idx : BitVec 6} {rest : List (Input s.cfg.DW)}

/-- A read takes one step and adds the register's word to the replies (R51, R54). -/
theorem step_of_read (h : s.pending = .read idx :: rest) :
    step s = .next { s with pending := rest, replies := s.replies ++ [s.regs.read s.cfg.DW (regAt idx)] } :=
  step_of_pending s (.read idx) rest h

/-- A write of an index other than `CMD` takes one step and only stores (R52, R54). -/
theorem step_of_write {v : BitVec s.cfg.DW} (h : s.pending = .write idx v :: rest) (h0 : idx ≠ 0) :
    step s = .next { s with pending := rest, regs := s.regs.write (regAt idx) v } :=
  (step_of_pending s (.write idx v) rest h).trans (hostWrite_of_ne_cmd { s with pending := rest } idx v h0)

/-- A write of `CMD` executes its low 32 bits within the step (R52, R53). -/
theorem step_of_write_cmd {v : BitVec s.cfg.DW} (h : s.pending = .write 0 v :: rest) :
    step s = executeWord (BitVec.ofNat 32 v.toNat) { s with pending := rest } := by
  rw [step_of_pending s _ rest h, ← setWidth_eq_ofNat]
  rfl

/-- The reset input takes one step (R220). -/
theorem step_of_reset (h : s.pending = .reset :: rest) :
    step s = .next { s with pending := rest, regs := Regs.reset } :=
  step_of_pending s .reset rest h

end

/-- Executing a word, legal or not, answers a next state in which only the registers differ (R78, R84). -/
theorem executeWord_total (w : CmdWord) (s : State) :
    ∃ r' : Regs s.cfg.W, executeWord w s = .next { s with regs := r' } := by
  cases h : decode w with
  | error e => exact ⟨_, executeWord_of_error s h⟩
  | ok i => exact ⟨_, (executeWord_of_ok s h).trans (exec_eq_finish i (s.setCmd w))⟩

/-- A write of any index takes one step and touches only the registers. -/
theorem step_of_write_total {s : State} {idx : BitVec 6} {v : BitVec s.cfg.DW} {rest : List (Input s.cfg.DW)}
    (h : s.pending = .write idx v :: rest) :
    ∃ r' : Regs s.cfg.W, step s = .next { s with pending := rest, regs := r' } := by
  by_cases h0 : idx = 0
  · subst h0
    rw [step_of_write_cmd h]
    exact executeWord_total _ { s with pending := rest }
  · exact ⟨_, step_of_write h h0⟩

/-! ### The index map of R30 and what an access of each index does -/

/-- The index that names a register; the reserved indices have none of their own, and 5 stands for them. -/
def RegName.index : RegName → BitVec 6
  | .cmd => 0
  | .status => 1
  | .ca => 2
  | .cb => 3
  | .cp => 4
  | .sr i => BitVec.ofNat 6 (0x08 + i)
  | .tag i => BitVec.ofNat 6 (0x10 + 4 * i)
  | .x i => BitVec.ofNat 6 (0x11 + 4 * i)
  | .y i => BitVec.ofNat 6 (0x12 + 4 * i)
  | .reserved => 5

theorem index_regAt : ∀ idx : BitVec 6, regAt idx ≠ .reserved → (regAt idx).index = idx := by
  decide

/-- Two indices of one register are equal, or reserved. -/
theorem regAt_ne_or_reserved {idx idx' : BitVec 6} (h : idx' ≠ idx) : regAt idx' ≠ regAt idx ∨ regAt idx = .reserved := by
  by_cases hr : regAt idx = .reserved
  · exact .inr hr
  · refine .inl fun heq => h ?_
    rw [← index_regAt idx hr, ← heq, index_regAt idx' (heq ▸ hr)]

/-- The indices of the `W`-bit registers. -/
theorem regAt_of_word : ∀ idx : BitVec 6,
    (2 ≤ idx.toNat ∧ idx.toNat ≤ 4) ∨ (8 ≤ idx.toNat ∧ idx.toNat < 16) ∨
      (16 ≤ idx.toNat ∧ idx.toNat < 48 ∧ (idx.toNat % 4 = 1 ∨ idx.toNat % 4 = 2)) →
    regAt idx = .ca ∨ regAt idx = .cb ∨ regAt idx = .cp ∨ (∃ i, regAt idx = .sr i) ∨ (∃ i, regAt idx = .x i) ∨
      ∃ i, regAt idx = .y i := by
  decide

/-- The indices of the tags. -/
theorem exists_regAt_tag : ∀ idx : BitVec 6,
    16 ≤ idx.toNat ∧ idx.toNat < 48 ∧ idx.toNat % 4 = 0 → ∃ i, regAt idx = .tag i := by
  decide

section
variable {W : Nat} (r : Regs W) (idx : BitVec 6)

/-- A port word as wide as the widest register carries what R51 says of each index. -/
theorem portValue_read {dw : Nat} (hW : W ≤ dw) (h32 : 32 ≤ dw) :
    PortValue r idx.toNat (r.read dw (regAt idx)).toNat := by
  obtain ⟨hcmd, hstatus, hca, hcb, hcp⟩ := regAt_of_low idx
  have hreserved : regAt idx = .reserved → (r.read dw (regAt idx)).toNat = 0 := fun h => by rw [h]; rfl
  refine ⟨fun h => ?_, fun h => ?_, fun h => ?_, fun h => ?_, fun h => ?_, fun h => ?_, fun i h => ?_, fun i h => ?_,
    fun i h => ?_, fun i h => ?_, fun i h => ?_, fun h => ?_⟩
  · rw [hcmd h]
    exact toNat_setWidth_of_le h32 r.cmd
  · rw [hstatus h]
    exact (toNat_setWidth_of_le h32 r.status).trans (toNat_setWidth_of_le (by decide) r.err)
  · rw [hca h]
    exact toNat_setWidth_of_le hW r.ca
  · rw [hcb h]
    exact toNat_setWidth_of_le hW r.cb
  · rw [hcp h]
    exact toNat_setWidth_of_le hW r.cp
  · exact hreserved (regAt_of_reserved idx (.inl h))
  · rw [regAt_of_sr i idx h]
    exact toNat_setWidth_of_le hW r.sr[i]
  · rw [regAt_of_tag i idx h]
    refine (toNat_setWidth_of_le (by omega) (BitVec.ofBool r.pr[i].inf)).trans ?_
    cases r.pr[i].inf <;> rfl
  · rw [regAt_of_x i idx h]
    exact toNat_setWidth_of_le hW r.pr[i].x
  · rw [regAt_of_y i idx h]
    exact toNat_setWidth_of_le hW r.pr[i].y
  · exact hreserved (regAt_of_reserved idx (by omega))
  · exact hreserved (regAt_of_reserved idx (.inr (.inr h)))

/-- A write of any index but `CMD` leaves what R52 says of it. -/
theorem portStores_write {k : Nat} (v : BitVec k) : PortStores r (r.write (regAt idx) v) idx.toNat v.toNat := by
  obtain ⟨-, hstatus, hca, hcb, hcp⟩ := regAt_of_low idx
  have hreserved : regAt idx = .reserved → r.write (regAt idx) v = r := fun h => by rw [h]; rfl
  have hlow := setWidth_eq_ofNat W v
  refine ⟨fun h => ?_, fun h => ?_, fun h => ?_, fun h => ?_, fun h => ?_, fun i h => ?_, fun i h => ?_, fun i h => ?_,
    fun i h => ?_, fun i h => ?_, fun h => ?_⟩
  · rw [hstatus h]
    rfl
  · rw [hca h, ← hlow]
    rfl
  · rw [hcb h, ← hlow]
    rfl
  · rw [hcp h, ← hlow]
    rfl
  · exact hreserved (regAt_of_reserved idx (.inl h))
  · rw [regAt_of_sr i idx h, ← hlow]
    rfl
  · rw [regAt_of_tag i idx h, ← Nat.testBit_zero]
    rfl
  · rw [regAt_of_x i idx h, ← hlow]
    rfl
  · rw [regAt_of_y i idx h, ← hlow]
    rfl
  · exact hreserved (regAt_of_reserved idx (by omega))
  · exact hreserved (regAt_of_reserved idx (.inr (.inr h)))

/-- `STATUS` and the reserved indices ignore a write. -/
theorem write_of_ignored {k : Nat} (v : BitVec k) (h : idx.toNat = 1 ∨ ReservedIndex idx.toNat) :
    r.write (regAt idx) v = r := by
  obtain ⟨-, hstatus, -⟩ := regAt_of_low idx
  rcases h with h | h
  · rw [hstatus h]
    rfl
  · rw [regAt_of_reserved idx h]
    rfl

end

/-- Settles O9: the word of a read is the register's at its index. -/
theorem readAnswersTheRegister : Obligations.ReadAnswersTheRegister := by
  intro s idx rest hp
  exact ⟨_, step_of_read hp, portValue_read s.regs idx (le_max_left _ _) (le_max_right _ _)⟩

/-- Settles O10: index 0 is `CMD`, and every other write only stores. -/
theorem writeStoresTheLowBits : Obligations.WriteStoresTheLowBits := by
  intro s idx v rest hp
  refine ⟨fun h0 => ?_, fun h0 => ⟨_, step_of_write hp (BitVec.toNat_ne_iff_ne.1 h0), portStores_write s.regs idx v⟩⟩
  obtain rfl : idx = 0 := BitVec.eq_of_toNat_eq h0
  exact step_of_write_cmd hp

/-- Settles O12: the write and the read take a step each, and the read sees the registers the write left. -/
theorem readAfterWrite : Obligations.ReadAfterWrite := by
  intro s idx idx' v rest h0 hp
  have hW : s.cfg.W ≤ s.cfg.DW := le_max_left _ _
  have h32 : 32 ≤ s.cfg.DW := le_max_right _ _
  refine ⟨_, _, ((s.regs.write (regAt idx) v).read s.cfg.DW (regAt idx')).toNat, step_of_write hp (BitVec.toNat_ne_iff_ne.1 h0),
    step_of_read rfl, List.map_append, fun hne => ?_, fun heq => ?_⟩
  · rw [read_write_of_ne s.regs _ _ v (regAt_ne_or_reserved hne)]
    exact portValue_read s.regs idx' hW h32
  · subst heq
    obtain ⟨hword, htag⟩ := read_write_self s.regs (regAt idx') v hW (by omega)
    refine ⟨fun h => hword (regAt_of_word idx' h), fun h => htag (exists_regAt_tag idx' h), fun h => ?_⟩
    rw [write_of_ignored s.regs idx' v h]
    exact portValue_read s.regs idx' hW h32

/-- Settles O16, by the oldest input: none, a read, a write, or a reset. -/
theorem stepAlwaysAnswersAndTakesOneInput : Obligations.StepAlwaysAnswersAndTakesOneInput := by
  intro s
  rcases hp : s.pending with _ | ⟨_ | _ | _, rest⟩
  case nil =>
    have hidle : step s = .next { s with pending := [] } := by rw [step_of_idle s hp, ← hp]
    exact ⟨s.regs, s.replies, hidle, nofun, fun _ => rfl, fun _ => rfl⟩
  case cons.read idx =>
    exact ⟨s.regs, _, step_of_read hp, fun _ _ _ => ⟨_, rfl⟩, fun h => absurd rfl (h idx rest), nofun⟩
  case cons.write idx v =>
    obtain ⟨r', hr'⟩ := step_of_write_total hp
    exact ⟨r', s.replies, hr', nofun, fun _ => rfl, nofun⟩
  case cons.reset => exact ⟨Regs.reset, s.replies, step_of_reset hp, nofun, fun _ => rfl, nofun⟩

/-- Settles O8: storing the word and running its command is executing it. -/
theorem stepRunsTheDecodedCommand : Obligations.StepRunsTheDecodedCommand := by
  intro s v rest i hp hdecode
  exact (step_of_write_cmd hp).trans (executeWord_of_ok _ hdecode)

end Sys2Proof.Machine

/-! ### The command word: decode and encode agree -/

namespace Sys2Proof

/-- The word of every command matches the command's row of R74. -/
theorem word_matches_row (i : Instr) : Laws.WordMatchesRow.Statement i := by
  cases i with
  | inv rd rk => exact Laws.WordMatchesRow.inv rd rk
  | padd rd rs1 rs2 => exact Laws.WordMatchesRow.padd rd rs1 rs2
  | pneg rd rs1 => exact Laws.WordMatchesRow.pneg rd rs1
  | pmul rd rs1 rk => exact Laws.WordMatchesRow.pmul rd rs1 rk
  | peq rd rs1 rs2 => exact Laws.WordMatchesRow.peq rd rs1 rs2
  | encode rd rk => exact Laws.WordMatchesRow.encode rd rk
  | enc rd rd2 rs1 rs2 rs3 rk => exact Laws.WordMatchesRow.enc rd rd2 rs1 rs2 rs3 rk
  | dec rd rs1 rs2 rk => exact Laws.WordMatchesRow.dec rd rs1 rs2 rk

/-- The command assembled from the fields of a well-formed command is that command (R73). -/
theorem assemble_fieldsOf {i : Instr} (h : WellFormed i) :
    assemble (Laws.WordMatchesRow.row i).op (fieldsOf i) = .ok i := by
  cases i with
  | enc rd rd2 rs1 rs2 rs3 rk =>
    have hne : fieldOfReg rd ≠ fieldOfReg rd2 := fun he => bne_iff_ne.1 h (fieldOfReg_inj.1 he)
    exact if_neg hne
  | _ => rfl

/-- Decoding undoes encoding on the well-formed commands (R80, R81). -/
theorem decode_encode {i : Instr} (h : WellFormed i) : decode (encode i) = .ok i := by
  obtain ⟨hrow, hmask⟩ := word_matches_row i
  have hfields : unpack (encode i) = fieldsOf i := unpack_pack (fieldsOf i)
  simp only [decode, hrow]
  rw [if_pos hmask, hfields, assemble_fieldsOf h]

/-- The bits that R74 fixes for each command, field by field: the opcode, the fields the command does not use, and `Z`. -/
def maskFields : Opcode → Fields
  | .inv | .encode => ⟨.allOnes 8, 0, .allOnes 3, .allOnes 3, .allOnes 3, .allOnes 3, 0, .allOnes 6⟩
  | .padd | .peq => ⟨.allOnes 8, 0, .allOnes 3, 0, 0, .allOnes 3, .allOnes 3, .allOnes 6⟩
  | .pneg => ⟨.allOnes 8, 0, .allOnes 3, 0, .allOnes 3, .allOnes 3, .allOnes 3, .allOnes 6⟩
  | .pmul => ⟨.allOnes 8, 0, .allOnes 3, 0, .allOnes 3, .allOnes 3, 0, .allOnes 6⟩
  | .enc => ⟨.allOnes 8, 0, 0, 0, 0, 0, 0, .allOnes 6⟩
  | .dec => ⟨.allOnes 8, 0, .allOnes 3, 0, 0, .allOnes 3, 0, .allOnes 6⟩

/-- The masks and patterns of R74 are packed fields. -/
theorem opcodeTable_packed :
    ∀ row ∈ opcodeTable, row.mask = pack (maskFields row.op) ∧ row.pattern = pack ⟨row.opc, 0, 0, 0, 0, 0, 0, 0⟩ := by
  decide

/-- When `ENC` has a command for the fields, it is the one with these operands. -/
theorem assemble_enc_ok {f : Fields} {i : Instr} (h : assemble .enc f = .ok i) :
    i = .enc (regOfField f.rd) (regOfField f.rd2) (regOfField f.rs1) (regOfField f.rs2) (regOfField f.rs3) (regOfField f.rk) := by
  rw [assemble] at h
  split at h
  · cases h
  · cases h
    rfl

/-- Fields that pass a row's mask test are the fields of the command the row makes of them: the used ones are its operands, and
the others are zero (R73, R76). -/
theorem fieldsOf_of_assemble {row : OpRow} (hrow : row ∈ opcodeTable) {w : CmdWord} {i : Instr}
    (hmask : w &&& row.mask = row.pattern) (h : assemble row.op (unpack w) = .ok i) : fieldsOf i = unpack w := by
  obtain ⟨hm, hp⟩ := opcodeTable_packed row hrow
  rw [hm, hp] at hmask
  have hfields := unpack_and_of_mask hmask
  generalize unpack w = f at h hfields
  obtain ⟨opc, rd, rd2, rs1, rs2, rs3, rk, z⟩ := f
  obtain ⟨op, c, pattern, mask⟩ := row
  cases op with
  | enc =>
    obtain rfl := assemble_enc_ok h
    simp only [maskFields, BitVec.and_allOnes, Fields.mk.injEq] at hfields
    simp [opcodeTable] at hrow
    simp [fieldsOf, hfields, hrow]
  | _ =>
    cases h
    simp only [maskFields, BitVec.and_allOnes, Fields.mk.injEq] at hfields
    simp [opcodeTable] at hrow
    simp [fieldsOf, hfields, hrow]

/-- A word that decodes is the encoding of what it decodes to (R76, R80). -/
theorem encode_of_decode {w : CmdWord} {i : Instr} (h : decode w = .ok i) : encode i = w := by
  obtain ⟨row, hrow, -, hmask, hi⟩ := decode_ok h
  rw [encode, fieldsOf_of_assemble hrow hmask hi, pack_unpack]

end Sys2Proof

namespace Sys2Proof.Machine

/-- The fields of the low 32 bits of a number, as numbers (R71). -/
theorem unpack_ofNat (n : Nat) :
    (unpack (BitVec.ofNat 32 n)).opc.toNat = opcode n ∧ (unpack (BitVec.ofNat 32 n)).rd.toNat = field3 n 21 ∧
    (unpack (BitVec.ofNat 32 n)).rd2.toNat = field3 n 18 ∧ (unpack (BitVec.ofNat 32 n)).rs1.toNat = field3 n 15 ∧
    (unpack (BitVec.ofNat 32 n)).rs2.toNat = field3 n 12 ∧ (unpack (BitVec.ofNat 32 n)).rs3.toNat = field3 n 9 ∧
    (unpack (BitVec.ofNat 32 n)).rk.toNat = field3 n 6 ∧ (unpack (BitVec.ofNat 32 n)).z.toNat = n % 64 := by
  simp only [unpack, opcode, field3, BitVec.extractLsb'_toNat, BitVec.toNat_ofNat, Nat.shiftRight_eq_div_pow]
  omega

/-- The fields of a number whose low 32 bits decode to a command are that command's (R71, R80). -/
theorem fields_of_decode {n : Nat} {i : Instr} (h : decode (BitVec.ofNat 32 n) = .ok i) :
    opcode n = (fieldsOf i).opc.toNat ∧ field3 n 21 = (fieldsOf i).rd.toNat ∧ field3 n 18 = (fieldsOf i).rd2.toNat ∧
    field3 n 15 = (fieldsOf i).rs1.toNat ∧ field3 n 12 = (fieldsOf i).rs2.toNat ∧ field3 n 9 = (fieldsOf i).rs3.toNat ∧
    field3 n 6 = (fieldsOf i).rk.toNat ∧ n % 64 = (fieldsOf i).z.toNat := by
  have hfields : unpack (BitVec.ofNat 32 n) = fieldsOf i := by rw [← encode_of_decode h, encode, unpack_pack]
  simp only [← hfields, unpack_ofNat, and_self]

theorem opcode_of_decode {n : Nat} {i : Instr} (h : decode (BitVec.ofNat 32 n) = .ok i) : 1 ≤ opcode n ∧ opcode n ≤ 8 := by
  obtain ⟨hopc, -⟩ := fields_of_decode h
  rw [hopc]
  cases i <;> simp [fieldsOf]

/-- A word that decodes has nothing but zeros in `Z` and in the fields its command does not use (R76). -/
theorem not_unusedFieldNonzero_of_decode {n : Nat} {i : Instr} (h : decode (BitVec.ofNat 32 n) = .ok i) :
    ¬ UnusedFieldNonzero n := by
  obtain ⟨hopc, -, hrd2, hrs1, hrs2, hrs3, hrk, hz⟩ := fields_of_decode h
  simp only [UnusedFieldNonzero, hopc, hrd2, hrs1, hrs2, hrs3, hrk, hz]
  cases i <;> simp [fieldsOf]

/-- An `ENC` word that decodes names two different destinations (R77). -/
theorem destinations_of_decode_enc {n : Nat} {i : Instr} (h : decode (BitVec.ofNat 32 n) = .ok i) (h7 : opcode n = 7) :
    field3 n 21 ≠ field3 n 18 := by
  obtain ⟨hopc, hrd, hrd2, -⟩ := fields_of_decode h
  have hwf := wellFormed_of_decode h
  rw [hopc] at h7
  rw [hrd, hrd2]
  cases i with
  | enc rd rd2 rs1 rs2 rs3 rk =>
    exact fun he => bne_iff_ne.1 hwf (fieldOfReg_inj.1 (BitVec.eq_of_toNat_eq he))
  | _ => simp [fieldsOf] at h7

section
variable {s : State} {v : BitVec s.cfg.DW} {rest : List (Input s.cfg.DW)}

/-- A write of `CMD` with a word that decodes to no command (R78, R84). -/
theorem step_of_illegal (hp : s.pending = .write 0 v :: rest) (h : ∀ i, decode (BitVec.ofNat 32 v.toNat) ≠ .ok i) :
    step s = .next (s.afterIllegal (BitVec.ofNat 32 v.toNat) rest) := by
  rw [step_of_write_cmd hp]
  cases hd : decode (BitVec.ofNat 32 v.toNat) with
  | error e => exact executeWord_of_error { s with pending := rest } hd
  | ok i => exact absurd hd (h i)

end

/-- Settles O1: the command's word matches its own row, and the row takes its fields back to it. -/
theorem decodeOfEncodeIsTheCommand : Obligations.DecodeOfEncodeIsTheCommand := fun _ => decode_encode

/-- Settles O2, by the fields a row's mask covers and the fields its command uses. -/
theorem legalWordIsTheEncodingOfItsCommand : Obligations.LegalWordIsTheEncodingOfItsCommand := fun _ _ h =>
  ⟨wellFormed_of_decode h, encode_of_decode h⟩

/-- Settles O3: the encoder gives each command its word of the spec, and decoding undoes it. -/
theorem wordsOfTheSpecDecode : Obligations.WordsOfTheSpecDecode :=
  ⟨decode_encode (i := .inv 1 0) rfl, decode_encode (i := .padd 2 0 1) rfl, decode_encode (i := .pneg 4 0) rfl,
    decode_encode (i := .pmul 1 0 0) rfl, decode_encode (i := .peq 3 5 2) rfl, decode_encode (i := .encode 2 2) rfl,
    decode_encode (i := .enc 3 4 2 1 0 1) rfl, decode_encode (i := .dec 5 3 4 0) rfl⟩

/-- Settles O4: the opcodes of the commands are 1 to 8. -/
theorem reservedOpcodeRaisesIllegalCommand : Obligations.ReservedOpcodeRaisesIllegalCommand := by
  intro s v rest hp hopc
  refine step_of_illegal hp fun i hi => ?_
  have hrange := opcode_of_decode hi
  omega

/-- Settles O5: a word that decodes has zeros there, and is the encoding of its command. -/
theorem nonzeroUnusedFieldRaisesIllegalCommand : Obligations.NonzeroUnusedFieldRaisesIllegalCommand := by
  refine ⟨fun s v rest hp hunused => ?_, fun w w' i hw hw' => ?_⟩
  · exact step_of_illegal hp fun i hi => not_unusedFieldNonzero_of_decode hi hunused
  · rw [← encode_of_decode hw, encode_of_decode hw']

/-- Settles O6: such a word does not decode. -/
theorem encWithOneDestinationRaisesIllegalCommand : Obligations.EncWithOneDestinationRaisesIllegalCommand := by
  intro s v rest hp h7 hsame
  exact step_of_illegal hp fun i hi => destinations_of_decode_enc hi h7 hsame

/-- Settles O7: a word decodes, and is then the encoding of its command, or does not, and is then the encoding of none. -/
theorem everyWordIsACommandOrIllegal : Obligations.EveryWordIsACommandOrIllegal := by
  intro w
  cases hd : decode w with
  | ok i =>
    refine .inl ⟨i, wellFormed_of_decode hd, encode_of_decode hd, fun s v rest hp hv => ?_⟩
    subst hv
    exact (step_of_write_cmd hp).trans (executeWord_of_ok _ hd)
  | error e =>
    refine .inr ⟨fun i hwf hi => ?_, fun s v rest hp hv => ?_⟩
    · rw [← hi, decode_encode hwf] at hd
      cases hd
    · subst hv
      exact step_of_illegal hp fun i hi => nomatch hd.symm.trans hi

/-- Settles O21: the end with an error writes `ERR` only, and the other one clears it. -/
theorem commandIsAllOrNothing : Obligations.CommandIsAllOrNothing := by
  intro i s
  refine ⟨_, exec_eq_finish i s, fun herr => ?_⟩
  cases ho : outcome s.regs i with
  | error e => rfl
  | ok w =>
    rw [ho] at herr
    exact absurd rfl herr

end Sys2Proof.Machine

/-! ### The extended Euclidean algorithm and the contract of `inverse` (R100 to R103) -/

namespace Sys2Proof.Machine

/-- What every iteration keeps for the operands `a` and `p` (R102 (c), (e)): each remainder is its coefficient times `a` modulo `p`,
and the coefficients stay within `p`, because the sum of the coefficients' magnitudes, each times the other's remainder, does. -/
structure EuclidInv (a p : Nat) (e : Euclid) : Prop where
  r_modEq : (e.r : Int) ≡ e.t * a [ZMOD p]
  newr_modEq : (e.newr : Int) ≡ e.newt * a [ZMOD p]
  r_pos : 1 ≤ e.r
  t_le : |e.t| ≤ p
  cross_le : |e.t| * e.newr + |e.newt| * e.r ≤ p

theorem euclidInv_init {p : Nat} (a : Nat) (hp : 1 ≤ p) : EuclidInv a p (euclidInit a p) where
  r_modEq := by simp [euclidInit, Int.ModEq]
  newr_modEq := by simp [euclidInit]
  r_pos := hp
  t_le := by simp [euclidInit]
  cross_le := by simp [euclidInit]

section
variable {a p : Nat} {e : Euclid}

theorem EuclidInv.newt_le (h : EuclidInv a p e) : |e.newt| ≤ p := by
  have hr : (1 : Int) ≤ e.r := by exact_mod_cast h.r_pos
  calc |e.newt| ≤ |e.newt| * e.r := le_mul_of_one_le_right (abs_nonneg _) hr
    _ ≤ |e.t| * e.newr + |e.newt| * e.r := le_add_of_nonneg_left (by positivity)
    _ ≤ p := h.cross_le

/-- The new remainder as an exact integer difference (notes/assumptions/6.md). -/
theorem euclidStep_newr_cast (e : Euclid) : ((euclidStep e).newr : Int) = e.r - (e.r / e.newr : Nat) * e.newr := by
  simp only [euclidStep]
  rw [Nat.cast_sub (Nat.div_mul_le_self e.r e.newr), Nat.cast_mul]

theorem EuclidInv.step (h : EuclidInv a p e) (hn : e.newr ≠ 0) : EuclidInv a p (euclidStep e) where
  r_modEq := h.newr_modEq
  newr_modEq := by
    have hstep : (euclidStep e).newt * a = e.t * a - (e.r / e.newr : Nat) * (e.newt * a) := by
      simp only [euclidStep]
      ring
    rw [euclidStep_newr_cast, hstep]
    exact h.r_modEq.sub (h.newr_modEq.mul_left _)
  r_pos := Nat.one_le_iff_ne_zero.2 hn
  t_le := h.newt_le
  cross_le := by
    rw [euclidStep_newr_cast]
    set q : Int := ((e.r / e.newr : Nat) : Int)
    have hq0 : 0 ≤ q := Int.natCast_nonneg _
    have htri : |e.t - q * e.newt| ≤ |e.t| + q * |e.newt| := by
      simpa [abs_mul, abs_of_nonneg hq0] using abs_sub e.t (q * e.newt)
    calc |e.newt| * (e.r - q * e.newr) + |e.t - q * e.newt| * e.newr
        ≤ |e.newt| * (e.r - q * e.newr) + (|e.t| + q * |e.newt|) * e.newr := by gcongr
      _ = |e.t| * e.newr + |e.newt| * e.r := by ring
      _ ≤ p := h.cross_le

theorem EuclidInv.loop (n : Nat) (h : EuclidInv a p e) : EuclidInv a p (euclidLoop n e) := by
  induction n generalizing e with
  | zero => exact h
  | succ n ih =>
    unfold euclidLoop
    split
    · exact h
    · exact ih (h.step ‹_›)

end

/-- The invariants of R102 hold after any number of iterations. -/
theorem euclidInv_loop {p : Nat} (a n : Nat) (hp : 1 ≤ p) : EuclidInv a p (euclidLoop n (euclidInit a p)) :=
  (euclidInv_init a hp).loop n

/-- An inverse that is returned is the coefficient at the end of the loop, whose remainder is then 1, brought to `[0, p]`. -/
theorem inverse_ok_modEq {a p t : Nat} (hp : 1 ≤ p) (h : inverse a p = .ok t) : (t : Int) * a ≡ 1 [ZMOD p] ∧ t ≤ p := by
  have hinv := euclidInv_loop a a hp
  unfold inverse at h
  generalize euclidLoop a (euclidInit a p) = e at h hinv
  by_cases hr : 1 < e.r
  · simp [hr] at h
  have hr1 : e.r = 1 := le_antisymm (by omega) hinv.r_pos
  have hone : e.t * a ≡ 1 [ZMOD p] := by simpa [hr1] using hinv.r_modEq.symm
  have ht_le := abs_le.1 hinv.t_le
  simp only [if_neg hr, Except.ok.injEq] at h
  by_cases hneg : e.t < 0
  · rw [if_pos hneg] at h
    have ht : (t : Int) = e.t + p := by omega
    refine ⟨?_, by omega⟩
    rw [ht, add_mul]
    exact (hone.add (Int.modEq_zero_iff_dvd.2 (dvd_mul_right _ _))).trans (by simp)
  · rw [if_neg hneg] at h
    have ht : (t : Int) = e.t := by omega
    exact ⟨ht ▸ hone, by omega⟩

/-- An inverse that is returned is in `[0, p)` and is an inverse (R100). -/
theorem inverse_spec {a p t : Nat} (hp : 2 ≤ p) (h : inverse a p = .ok t) : t < p ∧ a * t % p = 1 := by
  obtain ⟨hmod, hle⟩ := inverse_ok_modEq (by omega) h
  have hone : a * t % p = 1 := by
    have hnat : t * a ≡ 1 [MOD p] := Int.natCast_modEq_iff.1 (by simpa using hmod)
    rw [mul_comm, hnat, Nat.mod_eq_of_lt (by omega)]
  refine ⟨hle.lt_of_ne fun htp => ?_, hone⟩
  simp [htp] at hone

/-- Settles O31: the inverse exists, and as a number below `CP` it fits the register. -/
theorem invWritesTheInverse : Obligations.InvWritesTheInverse := by
  intro s rd rk hp hgcd
  obtain ⟨t, ht⟩ := inverse_ok_of_coprime hgcd
  obtain ⟨hlt, hone⟩ := inverse_spec hp ht
  have hread : (((s.regs.setScalar rd t).setErr noError).sr[rd]).toNat = t :=
    (s.regs.scalar_setScalar_self rd t).trans (Nat.mod_eq_of_lt (lt_two_pow_of_lt_cp s.regs hlt))
  refine ⟨_, command_of_ok (modulusOk_of_le hp) ht, rfl, ?_, ?_, sameButScalars_setScalar _ _ _ _⟩
  · rwa [hread]
  · rwa [hread]

end Sys2Proof.Machine

/-! ### The search of the message encoder (R160 to R162) -/

namespace Sys2Proof.Machine

/-- The inner loop finds the first root among its values. -/
theorem firstRoot_eq_some {p rhs count y0 y : Nat} (h0 : y0 ≤ y) (hcount : y < y0 + count) (hroot : y * y % p = rhs)
    (hfirst : ∀ y', y0 ≤ y' → y' < y → y' * y' % p ≠ rhs) : firstRoot p rhs count y0 = some y := by
  induction count generalizing y0 with
  | zero => omega
  | succ count ih =>
    rcases h0.eq_or_lt with rfl | hlt
    · exact if_pos hroot
    · rw [firstRoot, if_neg (hfirst y0 le_rfl hlt)]
      exact ih hlt (by omega) fun y' h' => hfirst y' (by omega)

/-- The inner loop finds nothing when none of its values is a root. -/
theorem firstRoot_eq_none {p rhs count y0 : Nat} (h : ∀ y, y0 ≤ y → y < y0 + count → y * y % p ≠ rhs) :
    firstRoot p rhs count y0 = none := by
  induction count generalizing y0 with
  | zero => rfl
  | succ count ih =>
    rw [firstRoot, if_neg (h y0 le_rfl (by omega))]
    exact ih fun y h' hy => h y (by omega) (by omega)

/-- The smallest root for `x`, if there is one, is what the inner loop finds. -/
theorem firstRoot_curveRhs_some {a b p x y : Nat} (hroot : IsRoot a b p x y) (hfirst : ∀ y', y' < y → ¬ IsRoot a b p x y') :
    firstRoot p (curveRhs x a b p) p 0 = some y := by
  obtain ⟨hlt, heq⟩ := hroot
  exact firstRoot_eq_some (Nat.zero_le y) (by omega) heq fun y' _ hy' he => hfirst y' hy' ⟨by omega, he⟩

theorem firstRoot_curveRhs_none {a b p x : Nat} (h : ∀ y, ¬ IsRoot a b p x y) : firstRoot p (curveRhs x a b p) p 0 = none :=
  firstRoot_eq_none fun y _ hlt he => h y ⟨by omega, he⟩

/-- The outer loop returns the first of its points. -/
theorem searchWindow_eq_ok {a b p count x0 x y : Nat} (h0 : x0 ≤ x) (hcount : x < x0 + count)
    (hbefore : ∀ x' y', x0 ≤ x' → x' < x → ¬ IsRoot a b p x' y') (hy : firstRoot p (curveRhs x a b p) p 0 = some y) :
    searchWindow a b p count x0 = .ok (.aff x y) := by
  induction count generalizing x0 with
  | zero => omega
  | succ count ih =>
    rcases h0.eq_or_lt with rfl | hlt
    · rw [searchWindow, hy]
    · rw [searchWindow, firstRoot_curveRhs_none fun y' => hbefore x0 y' le_rfl hlt]
      exact ih hlt (by omega) fun x' y' h' => hbefore x' y' (by omega)

/-- The encoder returns the first point of its window (R161). -/
theorem encodeMsg_of_firstPoint {m a b p x y : Nat} (h : FirstPoint m a b p x y) : encodeMsg m a b p = .ok (.aff x y) := by
  obtain ⟨h0, h9, hroot, hbefore, hfirst⟩ := h
  exact searchWindow_eq_ok h0 (by omega) hbefore (firstRoot_curveRhs_some hroot hfirst)

/-- Settles O53: the first point is found, its `x` fits by the window and its `y` is below `CP`. -/
theorem encodeWritesTheFirstPoint : Obligations.EncodeWritesTheFirstPoint := by
  intro s rd rk x y hp hwindow hfirst
  have hencode := encodeMsg_of_firstPoint hfirst
  obtain ⟨-, hx, ⟨hy, -⟩, -, -⟩ := hfirst
  have hok : (s.regs.modulusOk && s.regs.windowOk rk) = true := by
    rw [modulusOk_of_le hp]
    exact decide_eq_true hwindow
  refine command_completes_point hok hencode fun x' y' he => ?_
  obtain ⟨rfl, rfl⟩ := Point.aff.inj he
  exact ⟨by omega, lt_two_pow_of_lt_cp s.regs hy⟩

end Sys2Proof.Machine

/-! ### Encryption and decryption step by step (R170, R172) -/

namespace Sys2Proof.Machine

theorem except_bind_eq_ok {α β ε : Type} {x : Except ε α} {f : α → Except ε β} {v : β} :
    x.bind f = .ok v ↔ ∃ w, x = .ok w ∧ f w = .ok v := by
  cases x <;> simp [Except.bind]

theorem except_map_eq_ok {α β ε : Type} {x : Except ε α} {f : α → β} {v : β} :
    x.map f = .ok v ↔ ∃ w, x = .ok w ∧ f w = v := by
  cases x <;> simp [Except.map]

section
variable {M Q G C1 C2 : Point} {C : Point × Point} {a p k d : Nat}

/-- `encrypt` returns exactly what its three steps return. -/
theorem encrypt_eq_ok : encrypt M Q G a p k = .ok C ↔
    multiply G k a p = .ok C.1 ∧ ∃ S, multiply Q k a p = .ok S ∧ add M S a p = .ok C.2 := by
  obtain ⟨C1, C2⟩ := C
  simp only [encrypt, except_bind_eq_ok, except_map_eq_ok, Prod.mk.injEq]
  constructor
  · rintro ⟨_, hG, S, hQ, _, hM, rfl, rfl⟩
    exact ⟨hG, S, hQ, hM⟩
  · rintro ⟨hG, S, hQ, hM⟩
    exact ⟨C1, hG, S, hQ, C2, hM, rfl, rfl⟩

/-- `decrypt` returns exactly what its two steps return. -/
theorem decrypt_eq_ok : decrypt C1 C2 d a p = .ok M ↔ ∃ S, multiply C1 d a p = .ok S ∧ add C2 (negate S p) a p = .ok M :=
  except_bind_eq_ok

/-- If one step of `encrypt` raises, `encrypt` raises `NoInverse` (R170). -/
theorem encrypt_eq_error {e : CmdError} (h : multiply G k a p = .error e ∨ multiply Q k a p = .error e ∨
    ∃ S, multiply Q k a p = .ok S ∧ add M S a p = .error e) : encrypt M Q G a p k = .error .noInverse := by
  cases hc : encrypt M Q G a p k with
  | error e => rw [encrypt_error hc]
  | ok C =>
    obtain ⟨hG, S, hQ, hM⟩ := encrypt_eq_ok.1 hc
    rcases h with h | h | ⟨S', hQ', h⟩
    · cases hG.symm.trans h
    · cases hQ.symm.trans h
    · cases hQ.symm.trans hQ'
      cases hM.symm.trans h

/-- If one step of `decrypt` raises, `decrypt` raises `NoInverse` (R172). -/
theorem decrypt_eq_error {e : CmdError} (h : multiply C1 d a p = .error e ∨
    ∃ S, multiply C1 d a p = .ok S ∧ add C2 (negate S p) a p = .error e) : decrypt C1 C2 d a p = .error .noInverse := by
  cases hc : decrypt C1 C2 d a p with
  | error e => rw [decrypt_error hc]
  | ok M =>
    obtain ⟨S, hS, hM⟩ := decrypt_eq_ok.1 hc
    rcases h with h | ⟨S', hS', h⟩
    · cases hS.symm.trans h
    · cases hS.symm.trans hS'
      cases hM.symm.trans h

/-- The pair `encrypt` returns for points in range is in range. -/
theorem encrypt_inRange (hp : 1 ≤ p) (hM : M.inRange p = true) (hQ : Q.inRange p = true) (hG : G.inRange p = true)
    (h : encrypt M Q G a p k = .ok C) : C.1.inRange p = true ∧ C.2.inRange p = true := by
  obtain ⟨hC1, S, hS, hC2⟩ := encrypt_eq_ok.1 h
  exact ⟨multiply_inRange hp hG hC1, add_inRange hp hM (multiply_inRange hp hQ hS) hC2⟩

theorem decrypt_inRange (hp : 1 ≤ p) (h1 : C1.inRange p = true) (h2 : C2.inRange p = true)
    (h : decrypt C1 C2 d a p = .ok M) : M.inRange p = true := by
  obtain ⟨S, hS, hM⟩ := decrypt_eq_ok.1 h
  exact add_inRange hp h2 (negate_inRange hp (multiply_inRange hp h1 hS)) hM

end

/-- Nothing but `ERR` and two point registers differs after they are written. -/
theorem sameButPoints_setPoint_setPoint {W : Nat} (r : Regs W) (rd rd2 : PReg) (P Q : Point) (e : BitVec 4) :
    SameButPoints [rd, rd2] r (((r.setPoint rd P).setPoint rd2 Q).setErr e) := by
  refine ⟨rfl, rfl, rfl, rfl, rfl, fun j hj => ?_⟩
  simp only [List.mem_cons, List.not_mem_nil, or_false, not_or] at hj
  obtain ⟨hrd, hrd2⟩ := hj
  have hv : rd.val ≠ j.val := fun he => hrd (Fin.ext he.symm)
  have hv2 : rd2.val ≠ j.val := fun he => hrd2 (Fin.ext he.symm)
  simp [Vector.getElem_set_ne _ _ hv, Vector.getElem_set_ne _ _ hv2]

/-- A command with two different destinations completes with both written and nothing else but `ERR` changed. -/
theorem command_completes_points {s : State} {b : Bool} {res : Except CmdError (Point × Point)} {rd rd2 : PReg}
    {C : Point × Point} (hne : rd ≠ rd2) (hb : b = true) (hres : res = .ok C)
    (h1 : ∀ x y, C.1 = .aff x y → x < 2 ^ s.cfg.W ∧ y < 2 ^ s.cfg.W)
    (h2 : ∀ x y, C.2 = .aff x y → x < 2 ^ s.cfg.W ∧ y < 2 ^ s.cfg.W) :
    ∃ r' : Regs s.cfg.W,
      command s b res (fun C => (s.regs.setPoint rd C.1).setPoint rd2 C.2) = .next { s with regs := r' } ∧ r'.err = 0 ∧
        Holds r'.pr[rd] C.1 ∧ Holds r'.pr[rd2] C.2 ∧ SameButPoints [rd, rd2] s.regs r' := by
  have hv : rd2.val ≠ rd.val := fun he => hne (Fin.ext he.symm)
  refine ⟨_, command_of_ok hb hres, rfl, ?_, ?_, sameButPoints_setPoint_setPoint _ _ _ _ _ _⟩
  · simpa [Vector.getElem_set_ne _ _ hv] using holds_ofPoint h1
  · simpa using holds_ofPoint h2

/-- The range check of a command with two source points. -/
theorem modulusOk_and_pointOk_pair {W : Nat} {r : Regs W} {i j : PReg} (hp : 2 ≤ r.cp.toNat) (hi : ¬ OutOfRange r i)
    (hj : ¬ OutOfRange r j) : (r.modulusOk && r.pointOk i && r.pointOk j) = true := by
  rw [modulusOk_and_pointOk hp hi, pointOk_of_not_outOfRange hj]
  rfl

/-- `ENC` with different destinations is the template of R84 around `encrypt`. -/
theorem exec_enc_of_ne {rd rd2 : PReg} (rs1 rs2 rs3 : PReg) (rk : SReg) (s : State) (h : rd ≠ rd2) :
    exec (.enc rd rd2 rs1 rs2 rs3 rk) s =
      command s (s.regs.modulusOk && s.regs.pointOk rs1 && s.regs.pointOk rs2 && s.regs.pointOk rs3)
        (encrypt (s.regs.point rs1) (s.regs.point rs2) (s.regs.point rs3) s.regs.coeffA s.regs.modulus (s.regs.scalar rk))
        (fun C => (s.regs.setPoint rd C.1).setPoint rd2 C.2) :=
  if_neg h

/-- Settles O55: `encrypt` returns or raises as its steps do, and its pair stays in range. -/
theorem encWritesThePair : Obligations.EncWritesThePair := by
  intro s rd rd2 rs1 rs2 rs3 rk hne hp h1 h2 h3
  have hok : (s.regs.modulusOk && s.regs.pointOk rs1 && s.regs.pointOk rs2 && s.regs.pointOk rs3) = true := by
    rw [modulusOk_and_pointOk_pair hp h1 h2, pointOk_of_not_outOfRange h3]
    rfl
  rw [exec_enc_of_ne rs1 rs2 rs3 rk s hne]
  refine ⟨fun C1 S C2 hC1 hS hC2 => ?_, fun e he => ?_⟩
  · have hC := (encrypt_eq_ok (C := (C1, C2))).2 ⟨hC1, S, hS, hC2⟩
    obtain ⟨hr1, hr2⟩ := encrypt_inRange (by omega) (point_inRange h1) (point_inRange h2) (point_inRange h3) hC
    exact command_completes_points hne hok hC (fits_of_inRange hr1) (fits_of_inRange hr2)
  · have hraise := encrypt_eq_error he
    exact ⟨hraise, command_of_error hok hraise⟩

/-- Settles O56: `decrypt` returns or raises as its steps do, and its point stays in range. -/
theorem decWritesTheMessage : Obligations.DecWritesTheMessage := by
  intro s rd rs1 rs2 rk hp h1 h2
  have hok := modulusOk_and_pointOk_pair hp h1 h2
  refine ⟨fun S M hS hM => ?_, fun e he => ?_⟩
  · have hdec := decrypt_eq_ok.2 ⟨S, hS, hM⟩
    exact command_completes_point hok hdec (fits_of_inRange (decrypt_inRange (by omega) (point_inRange h1) (point_inRange h2) hdec))
  · have hraise := decrypt_eq_error he
    exact ⟨hraise, command_of_error hok hraise⟩

end Sys2Proof.Machine

/-! ### The formulas of R122 to R129 are those of the curve over the prime field -/

namespace Sys2Proof.Machine

/-- The curve `y^2 = x^3 + a*x + b` over the integers modulo `p`, singular or not (R15). -/
def weierstrass (a b p : Nat) : WeierstrassCurve.Affine (ZMod p) := ⟨0, 0, 0, a, b⟩

section
variable {a b p : Nat}

/-- A pair is on the curve exactly when its coordinates are in range and solve the curve's equation in the field. -/
theorem onCurve_aff_iff {x y : Nat} : OnCurve a b p (.aff x y) ↔ x < p ∧ y < p ∧ (weierstrass a b p).Equation x y := by
  have heq : y * y % p = (x * x * x + a * x + b) % p ↔ (weierstrass a b p).Equation x y := by
    rw [WeierstrassCurve.Affine.equation_iff]
    have hcast := ZMod.natCast_eq_natCast_iff (y * y) (x * x * x + a * x + b) p
    rw [Nat.ModEq] at hcast
    rw [← hcast]
    push_cast
    simp only [weierstrass]
    constructor <;> intro h <;> linear_combination h
  rw [OnCurve, heq]

/-- The curve's negation changes the sign of `y` (R122). -/
theorem negY_weierstrass (x y : ZMod p) : (weierstrass a b p).negY x y = -y := by
  simp [WeierstrassCurve.Affine.negY, weierstrass]

/-- The floor modulus is the residue class. -/
theorem cast_modP (hp : 1 ≤ p) (x : Int) : ((modP x p : Nat) : ZMod p) = x := by
  have h := (ZMod.intCast_eq_intCast_iff _ _ p).2 (modP_eq (x := x) hp)
  simpa using h

/-- Numbers below `p` are residue classes. -/
theorem cast_inj_of_lt {x y : Nat} (hx : x < p) (hy : y < p) : (x : ZMod p) = y ↔ x = y := by
  rw [ZMod.natCast_eq_natCast_iff, Nat.ModEq, Nat.mod_eq_of_lt hx, Nat.mod_eq_of_lt hy]

/-- The inverse that is returned is the inverse in the field (R100). -/
theorem cast_inverse [Fact p.Prime] {v t : Nat} (h : inverse v p = .ok t) : (t : ZMod p) = (v : ZMod p)⁻¹ := by
  have hp : 2 ≤ p := (Fact.out : p.Prime).two_le
  obtain ⟨-, hone⟩ := inverse_spec hp h
  have hmul : ((v * t : Nat) : ZMod p) = (1 : Nat) := by
    rw [ZMod.natCast_eq_natCast_iff, Nat.ModEq, hone, Nat.mod_eq_of_lt (by omega)]
  push_cast at hmul
  exact eq_inv_of_mul_eq_one_right hmul

section
variable [hp : Fact p.Prime] {x1 y1 x2 y2 m : Nat}

/-- The slope of R127 is the tangent's. -/
theorem cast_tangentSlope (h : tangentSlope x1 y1 a p = .ok m) (hy : (y1 : ZMod p) ≠ -y1) :
    (m : ZMod p) = (weierstrass a b p).slope x1 x1 y1 y1 := by
  obtain ⟨v, hv, rfl⟩ := except_map_eq_ok.1 h
  have hinv := cast_inverse hv
  rw [ZMod.natCast_mod] at hinv
  have hslope : (weierstrass a b p).slope x1 x1 y1 y1 = (3 * x1 * x1 + a) * (2 * y1 : ZMod p)⁻¹ := by
    rw [WeierstrassCurve.Affine.slope_of_Y_ne rfl (by rwa [negY_weierstrass]), negY_weierstrass, div_eq_mul_inv]
    simp only [weierstrass]
    ring
  rw [hslope, ZMod.natCast_mod]
  push_cast at hinv ⊢
  rw [hinv]

/-- The slope of R128 is the chord's. -/
theorem cast_chordSlope (h : chordSlope x1 y1 x2 y2 p = .ok m) (hx : (x1 : ZMod p) ≠ x2) :
    (m : ZMod p) = (weierstrass a b p).slope x1 x2 y1 y2 := by
  obtain ⟨v, hv, rfl⟩ := except_map_eq_ok.1 h
  have hinv := cast_inverse hv
  rw [WeierstrassCurve.Affine.slope_of_X_ne hx, cast_modP hp.out.one_le]
  rw [cast_modP hp.out.one_le] at hinv
  push_cast
  push_cast at hinv
  rw [hinv, ← neg_sub (x2 : ZMod p), ← neg_sub (y2 : ZMod p), neg_div_neg_eq, div_eq_mul_inv]

/-- The result of R129 is the third point of the line with that slope, mirrored. -/
theorem thirdPoint_eq (b x1 y1 x2 m : Nat) : ∃ x3 y3 : Nat, thirdPoint x1 y1 x2 p m = .aff x3 y3 ∧ x3 < p ∧ y3 < p ∧
    (x3 : ZMod p) = (weierstrass a b p).addX x1 x2 m ∧ (y3 : ZMod p) = (weierstrass a b p).addY x1 x2 y1 m := by
  have h1 : 1 ≤ p := hp.out.one_le
  refine ⟨_, _, rfl, modP_lt h1, modP_lt h1, ?_, ?_⟩
  · rw [cast_modP h1]
    simp only [WeierstrassCurve.Affine.addX, weierstrass]
    push_cast
    ring
  · rw [cast_modP h1]
    push_cast
    rw [cast_modP h1]
    rw [WeierstrassCurve.Affine.addY, negY_weierstrass]
    simp only [WeierstrassCurve.Affine.addX, WeierstrassCurve.Affine.negAddY, weierstrass]
    push_cast
    ring

/-- The condition of R126 in the field. -/
theorem cast_eq_neg_iff (y1 y2 : Nat) : (y1 : ZMod p) = -y2 ↔ (y1 + y2) % p = 0 := by
  rw [← Nat.dvd_iff_mod_eq_zero, ← ZMod.natCast_eq_zero_iff, Nat.cast_add, eq_neg_iff_add_eq_zero]

/-- Over a prime, what is not zero in the field is coprime to `p`. -/
theorem gcd_eq_one_of_cast_ne_zero {n : Int} (h : (n : ZMod p) ≠ 0) : Int.gcd n p = 1 := by
  rw [Ne, ZMod.intCast_zmod_eq_zero_iff_dvd, Int.natCast_dvd] at h
  exact ((Nat.Prime.coprime_iff_not_dvd hp.out).2 h).symm

/-- Two points of the curve that are not each other's negation have the line of R127 or R128, and it is the curve's (R191: the inverse
its slope needs exists). -/
theorem add_eq_thirdPoint (h1 : OnCurve a b p (.aff x1 y1)) (h2 : OnCurve a b p (.aff x2 y2))
    (hne : ¬ (x1 = x2 ∧ (y1 + y2) % p = 0)) :
    ∃ m, add (.aff x1 y1) (.aff x2 y2) a p = .ok (thirdPoint x1 y1 x2 p m) ∧
      (m : ZMod p) = (weierstrass a b p).slope x1 x2 y1 y2 := by
  obtain ⟨hx1, hy1, he1⟩ := onCurve_aff_iff.1 h1
  obtain ⟨hx2, hy2, he2⟩ := onCurve_aff_iff.1 h2
  by_cases hx : x1 = x2
  · subst hx
    have hopp : (y1 : ZMod p) ≠ -y2 := fun h => hne ⟨rfl, (cast_eq_neg_iff y1 y2).1 h⟩
    have hy : (y1 : ZMod p) = y2 := WeierstrassCurve.Affine.Y_eq_of_Y_ne he1 he2 rfl (by rwa [negY_weierstrass])
    obtain rfl := (cast_inj_of_lt hy1 hy2).1 hy
    have hgcd : Nat.gcd (2 * y1 % p) p = 1 := by
      rw [← Int.gcd_natCast_natCast]
      refine gcd_eq_one_of_cast_ne_zero ?_
      rw [Int.cast_natCast, ZMod.natCast_mod, two_mul, Nat.cast_add, Ne, ← eq_neg_iff_add_eq_zero]
      exact hopp
    obtain ⟨m, hm⟩ := tangentSlope_ok x1 a hgcd
    refine ⟨m, ?_, cast_tangentSlope hm hopp⟩
    rw [add, if_neg hne, if_pos ⟨rfl, rfl⟩, hm]
    rfl
  · have hcast : (x1 : ZMod p) ≠ x2 := mt (cast_inj_of_lt hx1 hx2).1 hx
    have hgcd : Int.gcd ((x2 : Int) - x1) p = 1 :=
      gcd_eq_one_of_cast_ne_zero (by simpa [sub_eq_zero] using hcast.symm)
    obtain ⟨m, hm⟩ := chordSlope_ok y1 y2 hp.out.one_le hgcd
    refine ⟨m, ?_, cast_chordSlope hm hcast⟩
    rw [add, if_neg hne, if_neg fun h => hx h.1, hm]
    rfl

end

section
variable {P Q M G C1 C2 : Point} {k d : Nat}

/-- Over a prime the sum of two points of the curve exists and is on the curve. -/
theorem add_onCurve (hp : p.Prime) (hP : OnCurve a b p P) (hQ : OnCurve a b p Q) :
    ∃ R, add P Q a p = .ok R ∧ OnCurve a b p R := by
  rcases P with _ | ⟨x1, y1⟩
  · exact ⟨Q, by rw [add], hQ⟩
  rcases Q with _ | ⟨x2, y2⟩
  · exact ⟨_, rfl, hP⟩
  by_cases hinf : x1 = x2 ∧ (y1 + y2) % p = 0
  · exact ⟨.inf, by rw [add, if_pos hinf], trivial⟩
  have : Fact p.Prime := ⟨hp⟩
  obtain ⟨m, hadd, hslope⟩ := add_eq_thirdPoint hP hQ hinf
  obtain ⟨x3, y3, hthird, hx3, hy3, hX, hY⟩ := thirdPoint_eq (a := a) (p := p) b x1 y1 x2 m
  obtain ⟨hx1, -, he1⟩ := onCurve_aff_iff.1 hP
  obtain ⟨hx2, -, he2⟩ := onCurve_aff_iff.1 hQ
  have hne : ¬ ((x1 : ZMod p) = x2 ∧ (y1 : ZMod p) = (weierstrass a b p).negY x2 y2) := by
    rwa [negY_weierstrass, cast_eq_neg_iff, cast_inj_of_lt hx1 hx2]
  refine ⟨_, hadd, ?_⟩
  rw [hthird, onCurve_aff_iff, hX, hY, hslope]
  exact ⟨hx3, hy3, WeierstrassCurve.Affine.equation_add he1 he2 hne⟩

theorem negate_onCurve (hp : 1 ≤ p) (hP : OnCurve a b p P) : OnCurve a b p (negate P p) := by
  rcases P with _ | ⟨x, y⟩
  · trivial
  obtain ⟨hx, -, he⟩ := onCurve_aff_iff.1 hP
  refine onCurve_aff_iff.2 ⟨hx, modP_lt hp, ?_⟩
  have hy : ((modP ((p : Int) - y) p : Nat) : ZMod p) = (weierstrass a b p).negY x y := by
    rw [cast_modP hp, negY_weierstrass]
    simp
  rw [hy]
  exact (WeierstrassCurve.Affine.equation_neg _ _).2 he

theorem multiplyLoop_onCurve (hp : p.Prime) {R running : Point} (n : Nat) (hR : OnCurve a b p R)
    (hrunning : OnCurve a b p running) : ∃ V, multiplyLoop a p n R running k = .ok V ∧ OnCurve a b p V := by
  induction n generalizing R running k with
  | zero => exact ⟨R, rfl, hR⟩
  | succ n ih =>
    by_cases hk : k = 0
    · exact ⟨R, by rw [hk, multiplyLoop_zero], hR⟩
    obtain ⟨R', hR', hcurve⟩ : ∃ R', (if k % 2 = 1 then add R running a p else .ok R) = .ok R' ∧ OnCurve a b p R' := by
      split
      · exact add_onCurve hp hR hrunning
      · exact ⟨R, rfl, hR⟩
    obtain ⟨D, hD, hdouble⟩ := add_onCurve hp hrunning hrunning
    rw [multiplyLoop_succ _ _ _ _ _ _ hk, hR', hD]
    exact ih hcurve hdouble

/-- Over a prime every multiple of a point of the curve exists and is on the curve. -/
theorem multiply_onCurve (hp : p.Prime) (k : Nat) (hP : OnCurve a b p P) :
    ∃ R, multiply P k a p = .ok R ∧ OnCurve a b p R :=
  multiplyLoop_onCurve hp k trivial hP

theorem encrypt_onCurve (hp : p.Prime) (k : Nat) (hM : OnCurve a b p M) (hQ : OnCurve a b p Q) (hG : OnCurve a b p G) :
    ∃ C, encrypt M Q G a p k = .ok C ∧ OnCurve a b p C.1 ∧ OnCurve a b p C.2 := by
  obtain ⟨C1, hC1, hcurve1⟩ := multiply_onCurve hp k hG
  obtain ⟨S, hS, hcurve⟩ := multiply_onCurve hp k hQ
  obtain ⟨C2, hC2, hcurve2⟩ := add_onCurve hp hM hcurve
  exact ⟨(C1, C2), encrypt_eq_ok.2 ⟨hC1, S, hS, hC2⟩, hcurve1, hcurve2⟩

theorem decrypt_onCurve (hp : p.Prime) (d : Nat) (h1 : OnCurve a b p C1) (h2 : OnCurve a b p C2) :
    ∃ M, decrypt C1 C2 d a p = .ok M ∧ OnCurve a b p M := by
  obtain ⟨S, hS, hcurve⟩ := multiply_onCurve hp d h1
  obtain ⟨M, hM, hcurveM⟩ := add_onCurve hp h2 (negate_onCurve hp.one_le hcurve)
  exact ⟨M, decrypt_eq_ok.2 ⟨S, hS, hM⟩, hcurveM⟩

end
end

end Sys2Proof.Machine

/-! ### The point commands on a curve over a prime field (R191, R224) -/

namespace Sys2Proof.Machine

/-- A register with the stored form of a point value reads as that value. -/
theorem point_of_holds {W : Nat} {r : Regs W} {i : PReg} {P : Point} (h : Holds r.pr[i] P) : r.point i = P := by
  cases P with
  | inf => exact point_of_inf h.1
  | aff x y =>
    obtain ⟨hinf, rfl, rfl⟩ := h
    exact point_of_aff hinf

theorem inRange_of_onCurve {a b p : Nat} {P : Point} (h : OnCurve a b p P) : P.inRange p = true := by
  cases P with
  | inf => rfl
  | aff x y =>
    obtain ⟨hx, hy, -⟩ := h
    simp [Point.inRange, hx, hy]

theorem not_outOfRange_of_onCurve {W a b : Nat} {r : Regs W} {i : PReg} (h : OnCurve a b r.cp.toNat (r.point i)) :
    ¬ OutOfRange r i := by
  rw [← pointOk_eq_false, Bool.not_eq_false]
  exact inRange_of_onCurve h

/-- A command whose function returns a point of the curve completes with it in its destination. -/
theorem command_completes_onCurve {s : State} {ok : Bool} {res : Except CmdError Point} (rd : PReg) {a b : Nat} (hok : ok = true)
    (hres : ∃ R, res = .ok R ∧ OnCurve a b s.regs.cp.toNat R) :
    ∃ r' : Regs s.cfg.W, command s ok res (fun P => s.regs.setPoint rd P) = .next { s with regs := r' } ∧ r'.err = 0 ∧
      (∀ q ∈ [rd], OnCurve a b s.regs.cp.toNat (r'.point q)) ∧ SameButPoints [rd] s.regs r' := by
  obtain ⟨R, hR, hcurve⟩ := hres
  obtain ⟨r', hexec, herr, hholds, hframe⟩ :=
    command_completes_point (rd := rd) hok hR (fits_of_inRange (inRange_of_onCurve hcurve))
  refine ⟨r', hexec, herr, fun q hq => ?_, hframe⟩
  rwa [List.mem_singleton.1 hq, point_of_holds hholds]

/-- Settles O44: over a prime every sum, multiple and negation of points of the curve exists and is on the curve. -/
theorem commandsOnTheCurveComplete : Obligations.CommandsOnTheCurveComplete := by
  intro i s hwf hsources hprime hcurve
  have hp := hprime.two_le
  cases i
  case inv | peq | encode => exact absurd rfl hsources
  all_goals simp only [pointSources, List.forall_mem_cons] at hcurve
  case padd rd rs1 rs2 =>
    obtain ⟨h1, h2, -⟩ := hcurve
    have hok := modulusOk_and_pointOk_pair hp (not_outOfRange_of_onCurve h1) (not_outOfRange_of_onCurve h2)
    exact command_completes_onCurve rd hok (add_onCurve hprime h1 h2)
  case pneg rd rs1 =>
    obtain ⟨h1, -⟩ := hcurve
    have hok := modulusOk_and_pointOk hp (not_outOfRange_of_onCurve h1)
    exact command_completes_onCurve rd hok ⟨_, rfl, negate_onCurve hprime.one_le h1⟩
  case pmul rd rs1 rk =>
    obtain ⟨h1, -⟩ := hcurve
    have hok := modulusOk_and_pointOk hp (not_outOfRange_of_onCurve h1)
    exact command_completes_onCurve rd hok (multiply_onCurve hprime _ h1)
  case dec rd rs1 rs2 rk =>
    obtain ⟨h1, h2, -⟩ := hcurve
    have hok := modulusOk_and_pointOk_pair hp (not_outOfRange_of_onCurve h1) (not_outOfRange_of_onCurve h2)
    exact command_completes_onCurve rd hok (decrypt_onCurve hprime _ h1 h2)
  case enc rd rd2 rs1 rs2 rs3 rk =>
    obtain ⟨hM, hQ, hG, -⟩ := hcurve
    obtain ⟨C, hC, hcurve1, hcurve2⟩ := encrypt_onCurve hprime (s.regs.scalar rk) hM hQ hG
    obtain ⟨hC1, S, hS, hC2⟩ := encrypt_eq_ok.1 hC
    obtain ⟨hcompletes, -⟩ := encWritesThePair s rd rd2 rs1 rs2 rs3 rk (bne_iff_ne.1 hwf) hp (not_outOfRange_of_onCurve hM)
      (not_outOfRange_of_onCurve hQ) (not_outOfRange_of_onCurve hG)
    obtain ⟨r', hexec, herr, hholds1, hholds2, hframe⟩ := hcompletes _ _ _ hC1 hS hC2
    refine ⟨r', hexec, herr, ?_, hframe⟩
    simp only [pointDestinations, List.forall_mem_cons]
    exact ⟨by rwa [point_of_holds hholds1], by rwa [point_of_holds hholds2], nofun⟩

end Sys2Proof.Machine

/-! ### The modular inverse as a whole, and how soon its loop ends (R100 to R106) -/

namespace Sys2Proof.Machine

/-- Two numbers below the modulus that are both inverses of `a` are the same (R100). -/
theorem inverse_unique {a p t u : Nat} (hgcd : Nat.gcd a p = 1) (ht : t < p) (hu : u < p) (htone : a * t % p = 1)
    (huone : a * u % p = 1) : u = t := by
  have hmul : a * u ≡ a * t [MOD p] := huone.trans htone.symm
  have hmod : u ≡ t [MOD p] := hmul.cancel_left_of_coprime ((Nat.gcd_comm p a).trans hgcd)
  exact hmod.eq_of_lt_of_lt hu ht

/-- An operand that shares a factor with the modulus raises `NoInverse`: the loop ends with their gcd as its remainder (R103). -/
theorem inverse_of_one_lt_gcd {a p : Nat} (h : 1 < Nat.gcd a p) : inverse a p = .error .noInverse := by
  simp [inverse, euclidLoop_r, h]

/-- The gcd with a modulus is 1 or more. -/
theorem gcd_eq_one_or_one_lt {p : Nat} (a : Nat) (hp : 2 ≤ p) : Nat.gcd a p = 1 ∨ 1 < Nat.gcd a p := by
  have hpos : 0 < Nat.gcd a p := Nat.gcd_pos_of_pos_right a (by omega)
  omega

/-- Settles O27: the loop's last remainder is the gcd, its last coefficient an inverse when the gcd is 1. -/
theorem inverseMeetsItsContract : Obligations.InverseMeetsItsContract := by
  intro a p hp
  refine ⟨fun hgcd => ?_, inverse_of_one_lt_gcd⟩
  obtain ⟨t, ht⟩ := inverse_ok_of_coprime hgcd
  obtain ⟨hlt, hone⟩ := inverse_spec hp ht
  exact ⟨t, ht, hlt, hone, fun u hu huone => inverse_unique hgcd hlt hu hone huone⟩

/-- Settles O28: every iteration keeps the invariants, and keeps the gcd of the remainders. -/
theorem euclidKeepsItsInvariants : Obligations.EuclidKeepsItsInvariants := by
  intro a p n hp
  have hinv := euclidInv_loop a n (p := p) (by omega)
  exact ⟨hinv.r_modEq, hinv.newr_modEq, euclidLoop_gcd n _, hinv.t_le, hinv.newt_le⟩

/-- Settles O30: `a` and `a mod p` have the same gcd with `p`, and where it is 1 the same inverse. -/
theorem inverseDependsOnTheResidueOnly : Obligations.InverseDependsOnTheResidueOnly := by
  intro a p hp
  have hgcd_mod : Nat.gcd (a % p) p = Nat.gcd a p := (Nat.mod_modEq a p).gcd_eq
  rcases gcd_eq_one_or_one_lt a hp with hgcd | hgcd
  · obtain ⟨t, ht⟩ := inverse_ok_of_coprime hgcd
    obtain ⟨u, hu⟩ := inverse_ok_of_coprime (hgcd_mod.trans hgcd)
    obtain ⟨htlt, htone⟩ := inverse_spec hp ht
    obtain ⟨hult, huone⟩ := inverse_spec hp hu
    rw [Nat.mod_mul_mod] at huone
    rw [ht, hu, inverse_unique hgcd htlt hult htone huone]
  · rw [inverse_of_one_lt_gcd hgcd, inverse_of_one_lt_gcd (hgcd.trans_eq hgcd_mod.symm)]

/-- Settles O32: a gcd that is not 1 is larger, because `CP` is not 0. -/
theorem invRaisesNoInverse : Obligations.InvRaisesNoInverse := by
  intro s rd rk hp hgcd
  have hlt := (gcd_eq_one_or_one_lt s.regs.sr[rk].toNat hp).resolve_left hgcd
  exact command_of_error (modulusOk_of_le hp) (inverse_of_one_lt_gcd hlt)

/-! The bound on the iterations: two of them at least halve the remainder (R102 (b), R230). -/

theorem euclidLoop_of_newr_eq_zero (n : Nat) {e : Euclid} (h : e.newr = 0) : euclidLoop n e = e :=
  euclidLoop_fuel (n := 0) n h (Nat.zero_le n)

theorem euclidLoop_succ (n : Nat) {e : Euclid} (h : e.newr ≠ 0) : euclidLoop (n + 1) e = euclidLoop n (euclidStep e) :=
  if_neg h

theorem euclidStep_newr_eq_mod (e : Euclid) : (euclidStep e).newr = e.r % e.newr :=
  Nat.mod_eq_sub_div_mul.symm

/-- A remainder is less than half the number it is taken of when the divisor does not exceed that number. -/
theorem two_mul_mod_lt {m n : Nat} (hm : 0 < m) (hle : m ≤ n) : 2 * (n % m) < n := by
  have hmod := Nat.mod_lt n hm
  have hsum := Nat.mod_add_div n m
  have hquot : m ≤ m * (n / m) := Nat.le_mul_of_pos_right m (Nat.div_pos hle hm)
  omega

/-- Two iterations take the remainder below its half. -/
theorem euclidStep_euclidStep_newr {e : Euclid} (hn : e.newr ≠ 0) (hn' : (euclidStep e).newr ≠ 0) :
    2 * (euclidStep (euclidStep e)).newr < e.newr := by
  rw [euclidStep_newr_eq_mod (euclidStep e)]
  exact two_mul_mod_lt (Nat.pos_of_ne_zero hn') (euclidStep_newr e hn).le

/-- So a remainder below `2^m` is 0 after `2*m` iterations. -/
theorem euclidLoop_ends_of_lt_two_pow {m : Nat} {e : Euclid} (h : e.newr < 2 ^ m) : (euclidLoop (2 * m) e).newr = 0 := by
  induction m generalizing e with
  | zero => simpa [euclidLoop] using h
  | succ m ih =>
    by_cases hn : e.newr = 0
    · rwa [euclidLoop_of_newr_eq_zero _ hn]
    rw [Nat.mul_succ, euclidLoop_succ _ hn]
    by_cases hn' : (euclidStep e).newr = 0
    · rwa [euclidLoop_of_newr_eq_zero _ hn']
    rw [euclidLoop_succ _ hn']
    have hhalf := euclidStep_euclidStep_newr hn hn'
    exact ih (by rw [pow_succ] at h; omega)

/-- For any operand one more iteration is enough, because the first one takes the remainder to at most `p`. -/
theorem euclidLoop_init_ends (a p : Nat) : (euclidLoop (2 * bitlen p + 1) (euclidInit a p)).newr = 0 := by
  by_cases ha : (euclidInit a p).newr = 0
  · rwa [euclidLoop_of_newr_eq_zero _ ha]
  rw [euclidLoop_succ _ ha]
  refine euclidLoop_ends_of_lt_two_pow ?_
  rw [euclidStep_newr_eq_mod]
  exact (Nat.mod_le p a).trans_lt (lt_bitlen p)

/-- Two numbers of iterations that both reach the end of the loop give the same result. -/
theorem euclidLoop_eq_of_ended {m n : Nat} {e : Euclid} (hm : (euclidLoop m e).newr = 0) (hn : (euclidLoop n e).newr = 0) :
    euclidLoop m e = euclidLoop n e := by
  rcases le_total n m with h | h
  · exact euclidLoop_fuel m hn h
  · exact (euclidLoop_fuel n hm h).symm

/-- Settles O29: two iterations at least halve the remainder, which is at most `p` from the first iteration on. -/
theorem euclidEndsWithinItsBound : Obligations.EuclidEndsWithinItsBound := by
  intro a p _
  have hends := euclidLoop_init_ends a p
  refine ⟨hends, euclidLoop_eq_of_ended hends (euclidLoop_ends le_rfl), fun ha => ?_⟩
  exact euclidLoop_ends_of_lt_two_pow (ha.trans (lt_bitlen p))

end Sys2Proof.Machine

/-! ### The cases of `add`, and where none of them has its inverse (R125 to R130) -/

namespace Sys2Proof.Machine

section
variable {x y x1 y1 x2 y2 a p m : Nat} {P Q : Point}

theorem add_inf (P : Point) (a p : Nat) : add P .inf a p = .ok P := by
  cases P <;> rfl

theorem add_of_opposite (a : Nat) (h : (y1 + y2) % p = 0) : add (.aff x y1) (.aff x y2) a p = .ok .inf :=
  if_pos ⟨rfl, h⟩

theorem add_self (h : (y + y) % p ≠ 0) :
    add (.aff x y) (.aff x y) a p = (tangentSlope x y a p).map (thirdPoint x y x p) := by
  rw [add, if_neg fun hc => h hc.2, if_pos ⟨rfl, rfl⟩]

theorem add_of_ne (hopp : ¬ (x1 = x2 ∧ (y1 + y2) % p = 0)) (hne : ¬ (x1 = x2 ∧ y1 = y2)) :
    add (.aff x1 y1) (.aff x2 y2) a p = (chordSlope x1 y1 x2 y2 p).map (thirdPoint x1 y1 x2 p) := by
  rw [add, if_neg hopp, if_neg hne]

/-- A point whose doubled `y` is invertible is not its own opposite, so case 2 does not take it before case 3 (R126, R127). -/
theorem not_opposite_self (hp : 2 ≤ p) (h : Nat.gcd (2 * y % p) p = 1) : (y + y) % p ≠ 0 := by
  intro hopp
  rw [two_mul, hopp, Nat.gcd_zero_left] at h
  omega

/-- An invertible difference is not 0, so neither case 2 nor case 3 takes the two points before case 4 (R126 to R128). -/
theorem x_ne_of_gcd (hp : 2 ≤ p) (h : Int.gcd ((x2 : Int) - x1) p = 1) : x1 ≠ x2 := by
  rintro rfl
  rw [sub_self, Int.gcd_zero_left, Int.natAbs_natCast] at h
  omega

theorem inverse_of_gcd_ne_one (hp : 2 ≤ p) (h : Nat.gcd a p ≠ 1) : inverse a p = .error .noInverse :=
  inverse_of_one_lt_gcd ((gcd_eq_one_or_one_lt a hp).resolve_left h)

theorem tangentSlope_of_gcd_ne_one (x1 a : Nat) (hp : 2 ≤ p) (h : Nat.gcd (2 * y1 % p) p ≠ 1) :
    tangentSlope x1 y1 a p = .error .noInverse := by
  rw [tangentSlope, inverse_of_gcd_ne_one hp h, Except.map]

theorem chordSlope_of_gcd_ne_one (y1 y2 : Nat) (hp : 2 ≤ p) (h : Int.gcd ((x2 : Int) - x1) p ≠ 1) :
    chordSlope x1 y1 x2 y2 p = .error .noInverse := by
  have hgcd : Nat.gcd (modP ((x2 : Int) - x1) p) p ≠ 1 := by rwa [gcd_modP (by omega)]
  rw [chordSlope, inverse_of_gcd_ne_one hp hgcd, Except.map]

/-- An addition that lacks the inverse of its case raises `NoInverse` (R130). -/
theorem add_of_not_addDefined (a : Nat) (hp : 2 ≤ p) (h : ¬ AddDefined p P Q) : add P Q a p = .error .noInverse := by
  rcases P with _ | ⟨x1, y1⟩
  · exact absurd trivial h
  rcases Q with _ | ⟨x2, y2⟩
  · exact absurd trivial h
  simp only [AddDefined, not_or, not_and] at h
  obtain ⟨hopp, htangent, hchord⟩ := h
  by_cases heq : x1 = x2 ∧ y1 = y2
  · obtain ⟨rfl, rfl⟩ := heq
    rw [add_self (hopp rfl), tangentSlope_of_gcd_ne_one x1 a hp (htangent rfl rfl), Except.map]
  · rw [add_of_ne (not_and.2 hopp) heq, chordSlope_of_gcd_ne_one y1 y2 hp (hchord (not_and.1 heq)), Except.map]

theorem add_eq_noInverse_iff (hp : 2 ≤ p) : add P Q a p = .error .noInverse ↔ ¬ AddDefined p P Q := by
  refine ⟨fun herr hdef => ?_, add_of_not_addDefined a hp⟩
  obtain ⟨R, hR⟩ := add_ok_of_addDefined a (by omega) hdef
  cases hR.symm.trans herr

/-- Over a prime a number between 0 and `p` is invertible, so in range only two different points with the same `x` have no sum (R130). -/
theorem same_x_of_not_addDefined (hp : p.Prime) (hP : P.inRange p = true) (hQ : Q.inRange p = true)
    (h : ¬ AddDefined p P Q) : ∃ x y1 y2, P = .aff x y1 ∧ Q = .aff x y2 ∧ y1 ≠ y2 := by
  rcases P with _ | ⟨x1, y1⟩
  · exact absurd trivial h
  rcases Q with _ | ⟨x2, y2⟩
  · exact absurd trivial h
  simp only [AddDefined, not_or, not_and] at h
  obtain ⟨hopp, htangent, hchord⟩ := h
  simp only [Point.inRange, Bool.and_eq_true, decide_eq_true_eq] at hP hQ
  have hx : x1 = x2 := by
    by_contra hne
    refine hchord (fun hx => absurd hx hne) ?_
    exact (Nat.coprime_of_lt_prime (by omega) (by omega) hp).symm
  subst hx
  refine ⟨x1, y1, y2, rfl, rfl, fun hy => ?_⟩
  subst hy
  have hne : 2 * y1 % p ≠ 0 := by simpa [two_mul] using hopp
  exact htangent rfl rfl (Nat.coprime_of_lt_prime hne (Nat.mod_lt _ hp.pos) hp).symm

end

/-- Settles O36: the first two cases of `add` decide. -/
theorem addTakesItsFirstTwoCases : Obligations.AddTakesItsFirstTwoCases :=
  ⟨fun Q a p => ⟨by rw [add], add_inf Q a p⟩, fun _ _ _ a _ h => add_of_opposite a h⟩

/-- Settles O39: an addition is defined or raises, and over a prime what is not 0 is invertible. -/
theorem addRaisesNoInverseExactly : Obligations.AddRaisesNoInverseExactly := by
  intro P Q a p hp
  refine ⟨add_eq_noInverse_iff hp, fun e => add_error, fun hprime hP hQ herr => ?_⟩
  exact same_x_of_not_addDefined hprime hP hQ ((add_eq_noInverse_iff hp).1 herr)

/-- Settles O41: the range check passes, and the addition raises. -/
theorem paddRaisesNoInverse : Obligations.PaddRaisesNoInverse := by
  intro s rd rs1 rs2 hp h1 h2 hdef
  exact command_of_error (modulusOk_and_pointOk_pair hp h1 h2) (add_of_not_addDefined _ hp hdef)

/-- Settles O43: over a prime the formulas of `add` are the addition of the curve. -/
theorem curveIsClosedUnderAdd : Obligations.CurveIsClosedUnderAdd := fun _ _ _ _ _ => add_onCurve

end Sys2Proof.Machine

/-! ### The line through two points over the integers modulo `p`, prime or not (R127 to R129, R132) -/

namespace Sys2Proof.Machine

section
variable {x y x1 y1 x2 y2 a p m : Nat}

/-- A number congruent to `d` times an inverse of `c` solves `c*m = d`. -/
theorem mul_modEq_of_inverse {v t : Nat} {c d : Int} (hp : 1 ≤ p) (ht : inverse v p = .ok t) (hv : (v : Int) ≡ c [ZMOD p])
    (hm : (m : Int) ≡ d * t [ZMOD p]) : c * m ≡ d [ZMOD p] := by
  obtain ⟨hone, -⟩ := inverse_ok_modEq hp ht
  calc c * m ≡ v * (d * t) [ZMOD p] := hv.symm.mul hm
    _ = d * (t * v) := by ring
    _ ≡ d * 1 [ZMOD p] := hone.mul_left d
    _ = d := mul_one d

/-- The slope of a doubling solves the tangent's equation (R127). -/
theorem tangentSlope_modEq (hp : 1 ≤ p) (h : tangentSlope x1 y1 a p = .ok m) :
    m < p ∧ 2 * (y1 : Int) * m ≡ 3 * x1 * x1 + a [ZMOD p] := by
  obtain ⟨t, ht, rfl⟩ := except_map_eq_ok.1 h
  refine ⟨Nat.mod_lt _ hp, mul_modEq_of_inverse hp ht ?_ ?_⟩
  · exact_mod_cast Int.mod_modEq (2 * y1) p
  · exact_mod_cast Int.mod_modEq ((3 * x1 * x1 + a) * t) p

/-- The slope of a generic addition solves the chord's equation (R128). -/
theorem chordSlope_modEq (hp : 1 ≤ p) (h : chordSlope x1 y1 x2 y2 p = .ok m) :
    m < p ∧ ((x2 : Int) - x1) * m ≡ y2 - y1 [ZMOD p] := by
  obtain ⟨t, ht, rfl⟩ := except_map_eq_ok.1 h
  exact ⟨modP_lt hp, mul_modEq_of_inverse hp ht (modP_eq hp) (modP_eq hp)⟩

/-- The coordinates of the third point are the residues R129 gives. -/
theorem thirdPoint_modEq (hp : 1 ≤ p) (x1 y1 x2 m : Nat) : ∃ x3 y3 : Nat, thirdPoint x1 y1 x2 p m = .aff x3 y3 ∧ x3 < p ∧ y3 < p ∧
    (x3 : Int) ≡ m * m - x1 - x2 [ZMOD p] ∧ (y3 : Int) ≡ m * (x1 - x3) - y1 [ZMOD p] :=
  ⟨_, _, rfl, modP_lt hp, modP_lt hp, modP_eq hp, modP_eq hp⟩

/-- The chord's equation has one solution below `p` where the difference of the two `x` is invertible. -/
theorem chord_solution_unique {m' : Nat} {c d : Int} (hgcd : Int.gcd c p = 1) (hm : m < p) (hm' : m' < p)
    (h : c * m ≡ d [ZMOD p]) (h' : c * m' ≡ d [ZMOD p]) : m = m' := by
  have hp : (0 : Int) < p := by omega
  have hmod : (m : Int) ≡ m' [ZMOD p] := by
    simpa [Int.gcd_comm, hgcd] using (h.trans h'.symm).cancel_left_div_gcd hp
  exact (Int.natCast_modEq_iff.1 hmod).eq_of_lt_of_lt hm hm'

/-- The chord has one slope, from either of its points. -/
theorem chordSlope_comm (hp : 2 ≤ p) (x1 y1 x2 y2 : Nat) : chordSlope x1 y1 x2 y2 p = chordSlope x2 y2 x1 y1 p := by
  have hgcd_comm : Int.gcd ((x1 : Int) - x2) p = Int.gcd ((x2 : Int) - x1) p := by rw [← neg_sub, Int.neg_gcd]
  by_cases hgcd : Int.gcd ((x2 : Int) - x1) p = 1
  · have hp1 : 1 ≤ p := by omega
    obtain ⟨m, hm⟩ := chordSlope_ok y1 y2 hp1 hgcd
    obtain ⟨m', hm'⟩ := chordSlope_ok y2 y1 hp1 (hgcd_comm.trans hgcd)
    obtain ⟨hlt, hslope⟩ := chordSlope_modEq hp1 hm
    obtain ⟨hlt', hslope'⟩ := chordSlope_modEq hp1 hm'
    have hback : ((x2 : Int) - x1) * m' ≡ y2 - y1 [ZMOD p] := by
      simpa only [← neg_mul, neg_sub] using hslope'.neg
    rw [hm, hm', chord_solution_unique hgcd hlt hlt' hslope hback]
  · rw [chordSlope_of_gcd_ne_one y1 y2 hp hgcd, chordSlope_of_gcd_ne_one y2 y1 hp (hgcd_comm ▸ hgcd)]

/-- The third point of a chord does not depend on which of its points comes first. -/
theorem thirdPoint_comm (h : ((x2 : Int) - x1) * m ≡ y2 - y1 [ZMOD p]) :
    thirdPoint x1 y1 x2 p m = thirdPoint x2 y2 x1 p m := by
  have hx : (m : Int) * m - x1 - x2 = m * m - x2 - x1 := by ring
  simp only [thirdPoint, hx]
  generalize modP ((m : Int) * m - x2 - x1) p = x3
  congr 1
  refine modP_congr (Int.modEq_iff_dvd.2 ?_)
  have hdiff : (m : Int) * (x2 - x3) - y2 - (m * (x1 - x3) - y1) = -((y2 - y1) - (x2 - x1) * m) := by ring
  rw [hdiff, dvd_neg]
  exact h.dvd

end

/-- Settles O37: the slope exists, so the sum is the third point of the tangent. -/
theorem addDoublesByTheTangent : Obligations.AddDoublesByTheTangent := by
  intro x y a p hp hgcd
  have hp1 : 1 ≤ p := by omega
  obtain ⟨m, hm⟩ := tangentSlope_ok x a hgcd
  obtain ⟨hlt, hslope⟩ := tangentSlope_modEq hp1 hm
  obtain ⟨x3, y3, hthird, hx3, hy3, hX, hY⟩ := thirdPoint_modEq hp1 x y x m
  refine ⟨m, x3, y3, hlt, hx3, hy3, ?_, hslope, hX, hY⟩
  rw [add_self (not_opposite_self hp hgcd), hm, Except.map, hthird]

/-- Settles O38: the slope exists, so the sum is the third point of the chord. -/
theorem addJoinsDistinctPointsByTheChord : Obligations.AddJoinsDistinctPointsByTheChord := by
  intro x1 y1 x2 y2 a p hp hgcd
  have hp1 : 1 ≤ p := by omega
  have hx := x_ne_of_gcd hp hgcd
  obtain ⟨m, hm⟩ := chordSlope_ok y1 y2 hp1 hgcd
  obtain ⟨hlt, hslope⟩ := chordSlope_modEq hp1 hm
  obtain ⟨x3, y3, hthird, hx3, hy3, hX, hY⟩ := thirdPoint_modEq hp1 x1 y1 x2 m
  refine ⟨m, x3, y3, hlt, hx3, hy3, ?_, hslope, hX, hY⟩
  rw [add_of_ne (fun h => hx h.1) (fun h => hx h.1), hm, Except.map, hthird]

/-- Settles O42: each case of `add` holds for both orders, and so does the line of the last one; the range of the coordinates plays no
part. -/
theorem addIsCommutative : Obligations.AddIsCommutative := by
  intro P Q a p hp _ _
  rcases P with _ | ⟨x1, y1⟩
  · rw [add, add_inf]
  rcases Q with _ | ⟨x2, y2⟩
  · rfl
  by_cases hopp : x1 = x2 ∧ (y1 + y2) % p = 0
  · obtain ⟨rfl, hsum⟩ := hopp
    rw [add_of_opposite a hsum, add_of_opposite a (by rwa [add_comm])]
  by_cases heq : x1 = x2 ∧ y1 = y2
  · obtain ⟨rfl, rfl⟩ := heq
    rfl
  have hopp' : ¬ (x2 = x1 ∧ (y2 + y1) % p = 0) := by rwa [eq_comm, add_comm]
  have heq' : ¬ (x2 = x1 ∧ y2 = y1) := by rwa [eq_comm, @eq_comm _ y2]
  rw [add_of_ne hopp heq, add_of_ne hopp' heq', chordSlope_comm hp x2 y2 x1 y1]
  cases hm : chordSlope x1 y1 x2 y2 p with
  | error e => rfl
  | ok m =>
    obtain ⟨-, hslope⟩ := chordSlope_modEq (by omega) hm
    exact congrArg Except.ok (thirdPoint_comm hslope)

end Sys2Proof.Machine

/-! ### Negation and equality of points (R120 to R122, R126, R133) -/

namespace Sys2Proof.Machine

section
variable {x y p : Nat}

theorem negate_negate_aff (x : Nat) (hy : y < p) : negate (negate (.aff x y) p) p = .aff x y := by
  have hmod : (p : Int) - modP ((p : Int) - y) p ≡ y [ZMOD p] := by
    simpa using (modP_eq (x := (p : Int) - y) (p := p) (by omega)).sub_left p
  rw [negate, negate, modP_unique hmod.symm hy]

/-- A coordinate and its negation add to 0 modulo `p`. -/
theorem add_modP_sub (hp : 1 ≤ p) (y : Nat) : (y + modP ((p : Int) - y) p) % p = 0 := by
  have hmod : ((y + modP ((p : Int) - y) p : Nat) : Int) ≡ (p : Nat) [ZMOD p] := by
    simpa using (modP_eq (x := (p : Int) - y) hp).add_left y
  rw [Int.natCast_modEq_iff.1 hmod, Nat.mod_self]

/-- Structural equality is equality of point values (R120). -/
theorem peq_eq_true_iff {P Q : Point} : peq P Q = true ↔ P = Q := by
  cases P <;> cases Q <;> simp [peq]

/-- Two point registers hold the same value when both hold `Inf`, or neither does and their coordinates are the same (R28). -/
theorem point_eq_point_iff {W : Nat} {r : Regs W} {i j : PReg} : r.point i = r.point j ↔
    (r.pr[i].inf = true ∧ r.pr[j].inf = true) ∨
      (r.pr[i].inf = false ∧ r.pr[j].inf = false ∧ r.pr[i].x = r.pr[j].x ∧ r.pr[i].y = r.pr[j].y) := by
  cases hi : r.pr[i].inf with
  | true =>
    rw [point_of_inf hi]
    cases hj : r.pr[j].inf with
    | true => simp [point_of_inf hj]
    | false => simp [point_of_aff hj]
  | false =>
    rw [point_of_aff hi]
    cases hj : r.pr[j].inf with
    | true => simp [point_of_inf hj]
    | false => simp [point_of_aff hj, BitVec.toNat_inj]

end

/-- Settles O35: `p - y` and `y` are opposite residues. -/
theorem negationIsTheGroupInverse : Obligations.NegationIsTheGroupInverse := by
  intro P a p hrange
  rcases P with _ | ⟨x, y⟩
  · exact ⟨rfl, rfl, rfl⟩
  have hy := hrange x y rfl
  exact ⟨negate_negate_aff x hy, rfl, add_of_opposite a (add_modP_sub (by omega) y)⟩

/-- Settles O33: `PEQ` completes with the truth value of the equality, which fits any scalar register. -/
theorem peqWritesStructuralEquality : Obligations.PeqWritesStructuralEquality := by
  intro s rd rs1 rs2
  have hW := s.cfg.hW
  have hone : 1 < 2 ^ s.cfg.W := Nat.one_lt_two_pow (by omega)
  refine ⟨_, complete_eq s _, rfl, ?_⟩
  rw [← point_eq_point_iff, ← peq_eq_true_iff]
  have hread (v : Nat) (hv : v ≤ 1) : (((s.regs.setScalar rd v).setErr noError).sr[rd]).toNat = v :=
    (s.regs.scalar_setScalar_self rd v).trans (Nat.mod_eq_of_lt (by omega))
  cases peq (s.regs.point rs1) (s.regs.point rs2) with
  | true => exact ⟨iff_of_true (hread 1 le_rfl) rfl, .inr (hread 1 le_rfl), sameButScalars_setScalar _ _ _ _⟩
  | false =>
    have hzero := hread 0 zero_le_one
    exact ⟨iff_of_false (fun h => zero_ne_one (hzero.symm.trans h)) Bool.false_ne_true, .inl hzero,
      sameButScalars_setScalar _ _ _ _⟩

end Sys2Proof.Machine

/-! ### The multiply loop bit by bit (R150 to R152, R155) -/

namespace Sys2Proof.Machine

/-- Bit `j` is within the bit length exactly when `k` reaches it. -/
theorem lt_bitlen_iff {j k : Nat} : j < bitlen k ↔ 2 ^ j ≤ k := by
  rcases Nat.eq_zero_or_pos k with rfl | hk
  · simp [bitlen]
  · rw [bitlen, if_neg hk.ne', Nat.lt_succ_iff, Nat.le_log2 hk.ne']

section
variable {P R running V : Point} {k a p n : Nat}

/-- `multiply` is the loop cut off after one iteration per bit (R152). -/
theorem multiply_eq_loop_bitlen (P : Point) (k a p : Nat) :
    multiply P k a p = multiplyLoop a p (bitlen k) .inf P k :=
  multiplyLoop_enough a p .inf P k k (bitlen k) Nat.lt_two_pow_self (lt_bitlen k)

/-- A loop that returns has doubled once per bit, the last time for no use (R152). -/
theorem doubleTimes_of_multiplyLoop (hn : bitlen k = n) (h : multiplyLoop a p n R running k = .ok V) :
    ∃ D, doubleTimes a p n running = .ok D := by
  induction n generalizing R running k with
  | zero => exact ⟨running, rfl⟩
  | succ n ih =>
    have hk : k ≠ 0 := by
      rintro rfl
      cases hn
    rw [multiplyLoop_succ _ _ _ _ _ _ hk] at h
    obtain ⟨R', -, h⟩ := except_bind_ok h
    obtain ⟨running', hdouble, h⟩ := except_bind_ok h
    obtain ⟨D, hD⟩ := ih (by rw [bitlen_half hk] at hn; omega) h
    exact ⟨D, by rw [doubleTimes, hdouble, Except.bind, hD]⟩

/-- The one iteration for `k = 1` keeps the point, if its doubling exists. -/
theorem multiply_one (P : Point) (a p : Nat) : multiply P 1 a p = (add P P a p).bind fun _ => .ok P := rfl

/-- The loop adds `Inf` to `Inf` in every iteration. -/
theorem multiplyLoop_inf (a p n k : Nat) : multiplyLoop a p n .inf .inf k = .ok .inf := by
  induction n generalizing k with
  | zero => rfl
  | succ n ih =>
    by_cases hk : k = 0
    · rw [hk, multiplyLoop_zero]
    · have hadd : add .inf .inf a p = .ok .inf := add_inf .inf a p
      rw [multiplyLoop_succ _ _ _ _ _ _ hk, hadd, ite_self]
      exact ih (k / 2)

end

/-- Settles O45: the loop unrolled once, with the bound `k / 2` that its rest needs. -/
theorem multiplyFollowsDoubleAndAdd : Obligations.MultiplyFollowsDoubleAndAdd := by
  refine ⟨fun P k a p => rfl, fun R running k a p => ⟨rfl, fun hk => ?_⟩⟩
  obtain ⟨n, rfl⟩ := Nat.exists_eq_succ_of_ne_zero hk
  have hrest (R' running' : Point) : multiplyLoop a p n R' running' ((n + 1) / 2) =
      multiplyLoop a p ((n + 1) / 2) R' running' ((n + 1) / 2) :=
    multiplyLoop_enough _ _ _ _ _ _ _ (half_lt_two_pow Nat.lt_two_pow_self) Nat.lt_two_pow_self
  rw [multiplyLoop_succ _ _ _ _ _ _ hk]
  simp only [Nat.succ_eq_add_one, hrest]

/-- Settles O46: `k` is below the power of two of its bit length, and reaches every earlier one. -/
theorem multiplyEndsAfterBitlenIterations : Obligations.MultiplyEndsAfterBitlenIterations := by
  intro R running k a p n hn
  have hlt : k < 2 ^ n := Nat.not_le.1 fun hle => absurd (lt_bitlen_iff.2 hle) (by omega)
  refine ⟨multiplyLoop_fuel a p (bitlen k) n R running k (lt_bitlen k) hn, Nat.div_eq_of_lt hlt, fun j hj => ?_⟩
  exact (Nat.div_pos (lt_bitlen_iff.1 hj) (by positivity)).ne'

/-- Settles O47: each of the `bitlen(k)` iterations doubles. -/
theorem multiplyMakesEveryDoubling : Obligations.MultiplyMakesEveryDoubling := by
  intro P R k a p h
  rw [multiply_eq_loop_bitlen] at h
  exact doubleTimes_of_multiplyLoop rfl h

/-- Settles O48: no iteration for 0, one for 1, and `Inf` added to itself for `Inf`. -/
theorem multiplyBySmallScalars : Obligations.MultiplyBySmallScalars := by
  intro P k a p
  refine ⟨rfl, fun D hD => ?_, fun e he => ?_, multiplyLoop_inf a p k k⟩
  · rw [multiply_one, hD, Except.bind]
  · rw [multiply_one, he, Except.bind]

end Sys2Proof.Machine

/-! ### On a non-singular curve the point values are the points of the curve's group (R155, R224) -/

namespace Sys2Proof.Machine

section
variable {a b p : Nat}

/-- The point value stands for this point of the curve's group: `Inf` for the zero, a pair in `[0, p)` for its residues. -/
def Denotes : Point → (weierstrass a b p).Point → Prop
  | .inf, .zero => True
  | .aff x y, .some X Y _ => x < p ∧ y < p ∧ (x : ZMod p) = X ∧ (y : ZMod p) = Y
  | .inf, .some _ _ _ => False
  | .aff _ _, .zero => False

/-- Reduced coordinates are fixed by their residues, so one point of the group has one point value. -/
theorem Denotes.unique {P Q : Point} {A : (weierstrass a b p).Point} (hP : Denotes P A) (hQ : Denotes Q A) : P = Q := by
  match P, Q, A, hP, hQ with
  | .inf, .inf, .zero, _, _ => rfl
  | .aff x1 y1, .aff x2 y2, .some X Y _, ⟨hx1, hy1, hX1, hY1⟩, ⟨hx2, hy2, hX2, hY2⟩ =>
    rw [(cast_inj_of_lt hx1 hx2).1 (hX1.trans hX2.symm), (cast_inj_of_lt hy1 hy2).1 (hY1.trans hY2.symm)]

theorem Denotes.onCurve {P : Point} {A : (weierstrass a b p).Point} (h : Denotes P A) : OnCurve a b p P := by
  match P, A, h with
  | .inf, .zero, _ => trivial
  | .aff x y, .some _ _ hns, ⟨hx, hy, rfl, rfl⟩ => exact onCurve_aff_iff.2 ⟨hx, hy, hns.left⟩

theorem discriminant_weierstrass (a b p : Nat) :
    (weierstrass a b p).Δ = -(2 ^ 4 * ((4 * a ^ 3 + 27 * b ^ 2 : Nat) : ZMod p)) := by
  simp only [WeierstrassCurve.Δ, WeierstrassCurve.b₂, WeierstrassCurve.b₄, WeierstrassCurve.b₆, WeierstrassCurve.b₈,
    weierstrass]
  push_cast
  ring

/-- The test of R224 (b) is the discriminant's where 2 is invertible. -/
theorem GoodCurve.discriminant_ne_zero (h : GoodCurve a b p) : (weierstrass a b p).Δ ≠ 0 := by
  obtain ⟨hprime, htwo, htest⟩ := h
  have : Fact p.Prime := ⟨hprime⟩
  have htwo' : ((2 : Nat) : ZMod p) ≠ 0 := by
    rwa [Ne, ZMod.natCast_eq_zero_iff, Nat.prime_dvd_prime_iff_eq hprime Nat.prime_two]
  have htest' : ((4 * a ^ 3 + 27 * b ^ 2 : Nat) : ZMod p) ≠ 0 := by
    rwa [Ne, ZMod.natCast_eq_zero_iff, Nat.dvd_iff_mod_eq_zero]
  rw [discriminant_weierstrass]
  exact neg_ne_zero.2 (mul_ne_zero (pow_ne_zero 4 htwo') htest')

/-- Without singular points, every point of the curve is one of the group. -/
theorem GoodCurve.exists_denotes {P : Point} (hgood : GoodCurve a b p) (hP : OnCurve a b p P) :
    ∃ A : (weierstrass a b p).Point, Denotes P A := by
  rcases P with _ | ⟨x, y⟩
  · exact ⟨.zero, trivial⟩
  · have : Fact p.Prime := ⟨hgood.1⟩
    obtain ⟨hx, hy, heq⟩ := onCurve_aff_iff.1 hP
    have hns := (WeierstrassCurve.Affine.equation_iff_nonsingular_of_Δ_ne_zero hgood.discriminant_ne_zero).1 heq
    exact ⟨.some _ _ hns, hx, hy, rfl, rfl⟩

section
variable [hp : Fact p.Prime] {P Q R running M G C1 C2 : Point} {A B : (weierstrass a b p).Point} {d k n : Nat}

/-- `add` is the addition of the group (R124 to R129). -/
theorem Denotes.add (hP : Denotes P A) (hQ : Denotes Q B) : ∃ R, add P Q a p = .ok R ∧ Denotes R (A + B) := by
  match P, Q, A, B, hP, hQ with
  | .inf, Q, .zero, B, _, hQ => exact ⟨Q, by rw [Machine.add], (zero_add B).symm ▸ hQ⟩
  | .aff x1 y1, .inf, A, .zero, hP, _ => exact ⟨_, rfl, (add_zero A).symm ▸ hP⟩
  | .aff x1 y1, .aff x2 y2, .some _ _ hA, .some _ _ hB, hP, hQ =>
    have hcurve1 := hP.onCurve
    have hcurve2 := hQ.onCurve
    obtain ⟨hx1, -, rfl, rfl⟩ := hP
    obtain ⟨hx2, -, rfl, rfl⟩ := hQ
    by_cases hinf : x1 = x2 ∧ (y1 + y2) % p = 0
    · obtain ⟨rfl, hopp⟩ := hinf
      refine ⟨.inf, add_of_opposite a hopp, ?_⟩
      rw [WeierstrassCurve.Affine.Point.add_of_Y_eq rfl (by rwa [negY_weierstrass, cast_eq_neg_iff])]
      trivial
    · obtain ⟨m, hadd, hslope⟩ := add_eq_thirdPoint hcurve1 hcurve2 hinf
      obtain ⟨x3, y3, hthird, hx3, hy3, hX, hY⟩ := thirdPoint_eq (a := a) (p := p) b x1 y1 x2 m
      have hne : ¬ ((x1 : ZMod p) = x2 ∧ (y1 : ZMod p) = (weierstrass a b p).negY x2 y2) := by
        rwa [negY_weierstrass, cast_eq_neg_iff, cast_inj_of_lt hx1 hx2]
      rw [hslope] at hX hY
      rw [WeierstrassCurve.Affine.Point.add_some hne]
      exact ⟨_, hadd, hthird ▸ ⟨hx3, hy3, hX, hY⟩⟩

/-- `negate` is the negation of the group (R122). -/
theorem Denotes.negate (hP : Denotes P A) : Denotes (negate P p) (-A) := by
  match P, A, hP with
  | .inf, .zero, _ => trivial
  | .aff x y, .some _ _ _, ⟨hx, hy, rfl, rfl⟩ =>
    refine ⟨hx, modP_lt hp.out.one_le, rfl, ?_⟩
    rw [cast_modP hp.out.one_le, negY_weierstrass]
    simp

/-- The loop adds the remaining multiple of the running point to the accumulator (R150). -/
theorem Denotes.multiplyLoop (hR : Denotes R B) (hrunning : Denotes running A) (hk : k < 2 ^ n) :
    ∃ V, multiplyLoop a p n R running k = .ok V ∧ Denotes V (B + k • A) := by
  induction n generalizing R running k A B with
  | zero =>
    obtain rfl : k = 0 := by simpa using hk
    exact ⟨R, rfl, by rwa [zero_nsmul, add_zero]⟩
  | succ n ih =>
    by_cases h0 : k = 0
    · subst h0
      exact ⟨R, multiplyLoop_zero .., by rwa [zero_nsmul, add_zero]⟩
    obtain ⟨R', hR', haccumulated⟩ : ∃ R', (if k % 2 = 1 then Machine.add R running a p else .ok R) = .ok R' ∧
        Denotes R' (B + (k % 2) • A) := by
      rcases Nat.mod_two_eq_zero_or_one k with hbit | hbit
      · exact ⟨R, by rw [hbit]; rfl, by rwa [hbit, zero_nsmul, add_zero]⟩
      · rw [if_pos hbit, hbit, one_nsmul]
        exact hR.add hrunning
    obtain ⟨D, hD, hdoubled⟩ := hrunning.add hrunning
    obtain ⟨V, hV, hrest⟩ := ih haccumulated hdoubled (half_lt_two_pow hk)
    have hsum : B + (k % 2) • A + (k / 2) • (A + A) = B + k • A := by
      rw [← two_nsmul, ← mul_nsmul, add_assoc, ← add_nsmul, Nat.mod_add_div]
    rw [multiplyLoop_succ _ _ _ _ _ _ h0, hR', hD]
    exact ⟨V, hV, hsum ▸ hrest⟩

/-- `multiply` is the multiple in the group (R155). -/
theorem Denotes.multiply (hP : Denotes P A) (k : Nat) : ∃ R, multiply P k a p = .ok R ∧ Denotes R (k • A) := by
  have hzero : Denotes .inf (0 : (weierstrass a b p).Point) := trivial
  obtain ⟨R, hR, hdenotes⟩ := hzero.multiplyLoop hP (Nat.lt_two_pow_self (n := k))
  exact ⟨R, hR, zero_add (k • A) ▸ hdenotes⟩

end
end

/-- Settles O49: multiples in the group are linear in the scalar. -/
theorem multiplyIsLinear : Obligations.MultiplyIsLinear := by
  intro P j k a b p hgood hP
  have : Fact p.Prime := ⟨hgood.1⟩
  obtain ⟨A, hA⟩ := hgood.exists_denotes hP
  obtain ⟨J, hJ, hdenotesJ⟩ := hA.multiply j
  obtain ⟨K, hK, hdenotesK⟩ := hA.multiply k
  obtain ⟨R, hR, hdenotesR⟩ := hdenotesJ.add hdenotesK
  obtain ⟨S, hS, hdenotesS⟩ := hA.multiply (j + k)
  rw [add_nsmul] at hdenotesS
  exact ⟨J, K, R, hJ, hK, hR, hdenotesR.unique hdenotesS ▸ hS⟩

end Sys2Proof.Machine
/-! ### Key derivation, encryption and decryption on the machine (R153, R171, R173 to R175) -/

namespace Sys2Proof.Machine

/-- The mask `k·(d·G)` of the encryption is the `d·(k·G)` that the decryption takes off again (R174). -/
theorem decrypt_encrypt {M G Q : Point} {a b p d : Nat} (k : Nat) (hgood : GoodCurve a b p) (hM : OnCurve a b p M)
    (hG : OnCurve a b p G) (hQ : multiply G d a p = .ok Q) :
    ∃ C, encrypt M Q G a p k = .ok C ∧ decrypt C.1 C.2 d a p = .ok M := by
  have : Fact p.Prime := ⟨hgood.1⟩
  obtain ⟨A, hA⟩ := hgood.exists_denotes hM
  obtain ⟨B, hB⟩ := hgood.exists_denotes hG
  obtain ⟨Q', hQ', hdenotesQ⟩ := hB.multiply d
  cases hQ.symm.trans hQ'
  obtain ⟨C1, hC1, hdenotesC1⟩ := hB.multiply k
  obtain ⟨S, hS, hdenotesS⟩ := hdenotesQ.multiply k
  obtain ⟨C2, hC2, hdenotesC2⟩ := hA.add hdenotesS
  obtain ⟨T, hT, hdenotesT⟩ := hdenotesC1.multiply d
  obtain ⟨M', hM', hdenotesM⟩ := hdenotesC2.add hdenotesT.negate
  rw [smul_comm d k B, add_neg_cancel_right] at hdenotesM
  cases hA.unique hdenotesM
  exact ⟨(C1, C2), encrypt_eq_ok.2 ⟨hC1, S, hS, hC2⟩, decrypt_eq_ok.2 ⟨T, hT, hM'⟩⟩

section
variable {s : State} {rd rd2 rs1 rs2 rs3 : PReg} {rk : SReg} {P Q G R : Point}

theorem pointOk_of_point_eq {W : Nat} {r : Regs W} {i : PReg} (hP : r.point i = P) (hrange : P.inRange r.modulus = true) :
    r.pointOk i = true := by
  rw [Regs.pointOk, hP, hrange]

/-- What `PMUL` of a point in range writes (R153). -/
theorem exec_pmul_of_multiply (hp : 2 ≤ s.regs.modulus) (hrange : (s.regs.point rs1).inRange s.regs.modulus = true)
    (hR : multiply (s.regs.point rs1) (s.regs.scalar rk) s.regs.coeffA s.regs.modulus = .ok R) :
    exec (.pmul rd rs1 rk) s = .next { s with regs := (s.regs.setPoint rd R).setErr 0 } :=
  command_of_ok (by rw [modulusOk_of_le hp, pointOk_of_point_eq rfl hrange]; rfl) hR

/-- What `ENC` of points in range writes (R171). -/
theorem exec_enc_of_encrypt {C : Point × Point} (hne : rd ≠ rd2) (hp : 2 ≤ s.regs.modulus) (hM : s.regs.point rs1 = P)
    (hQ : s.regs.point rs2 = Q) (hG : s.regs.point rs3 = G) (hrangeM : P.inRange s.regs.modulus = true)
    (hrangeQ : Q.inRange s.regs.modulus = true) (hrangeG : G.inRange s.regs.modulus = true)
    (hC : encrypt P Q G s.regs.coeffA s.regs.modulus (s.regs.scalar rk) = .ok C) :
    exec (.enc rd rd2 rs1 rs2 rs3 rk) s =
      .next { s with regs := ((s.regs.setPoint rd C.1).setPoint rd2 C.2).setErr 0 } := by
  have hok : (s.regs.modulusOk && s.regs.pointOk rs1 && s.regs.pointOk rs2 && s.regs.pointOk rs3) = true := by
    rw [modulusOk_of_le hp, pointOk_of_point_eq hM hrangeM, pointOk_of_point_eq hQ hrangeQ, pointOk_of_point_eq hG hrangeG]
    rfl
  subst hM hQ hG
  exact (exec_enc_of_ne _ _ _ _ _ hne).trans (command_of_ok hok hC)

/-- What `DEC` of points in range writes (R173). -/
theorem exec_dec_of_decrypt (hp : 2 ≤ s.regs.modulus) (hP : s.regs.point rs1 = P) (hQ : s.regs.point rs2 = Q)
    (hrangeP : P.inRange s.regs.modulus = true) (hrangeQ : Q.inRange s.regs.modulus = true)
    (hR : decrypt P Q (s.regs.scalar rk) s.regs.coeffA s.regs.modulus = .ok R) :
    exec (.dec rd rs1 rs2 rk) s = .next { s with regs := (s.regs.setPoint rd R).setErr 0 } := by
  have hok : (s.regs.modulusOk && s.regs.pointOk rs1 && s.regs.pointOk rs2) = true := by
    rw [modulusOk_of_le hp, pointOk_of_point_eq hP hrangeP, pointOk_of_point_eq hQ hrangeQ]
    rfl
  subst hP hQ
  exact command_of_ok hok hR

end

/-- A point in range fits its register, so it reads back as written (R28). -/
theorem point_setPoint_of_inRange {W : Nat} {r : Regs W} {P : Point} (i : PReg) (h : P.inRange r.modulus = true) :
    (r.setPoint i P).point i = P :=
  r.point_setPoint_self i P (fits_of_inRange h)

/-- Settles O58: the key register is neither the base point's nor the message's, so `ENC` reads all three points, `DEC` reads the pair,
and `decrypt` undoes `encrypt`. -/
theorem keygenEncDecRecoverTheMessage : Obligations.KeygenEncDecRecoverTheMessage := by
  intro s g q m c1 c2 o d k hqg hqm hc hgood hG hM
  have hp := hgood.1.two_le
  have hp1 : 1 ≤ s.regs.modulus := hgood.1.one_le
  have hrangeG := inRange_of_onCurve hG
  have hrangeM := inRange_of_onCurve hM
  obtain ⟨Q, hQ, hcurveQ⟩ := multiply_onCurve hgood.1 (s.regs.scalar d) hG
  have hrangeQ := inRange_of_onCurve hcurveQ
  obtain ⟨C, henc, hdec⟩ := decrypt_encrypt (s.regs.scalar k) hgood hM hG hQ
  obtain ⟨hrange1, hrange2⟩ := encrypt_inRange hp1 hrangeM hrangeQ hrangeG henc
  have hkeyed (i : PReg) (hi : q ≠ i) : (s.regs.setPoint q Q).point i = s.regs.point i :=
    s.regs.point_setPoint_of_ne q i Q hi.symm
  refine ⟨_, _, _, exec_pmul_of_multiply hp hrangeG hQ,
    exec_enc_of_encrypt hc hp (hkeyed m hqm) (point_setPoint_of_inRange q hrangeQ) (hkeyed g hqg) hrangeM hrangeQ hrangeG henc,
    exec_dec_of_decrypt hp ?_ (point_setPoint_of_inRange c2 hrange2) hrange1 hrange2 hdec,
    point_setPoint_of_inRange o hrangeM, rfl⟩
  exact (Regs.point_setPoint_of_ne _ c2 c1 C.2 hc).trans (point_setPoint_of_inRange c1 hrange1)

end Sys2Proof.Machine

/-! ### The encoder returns its first point or fails (R161, R162) -/

namespace Sys2Proof.Machine

section
variable {m a b p : Nat}

/-- The outer loop fails when none of its values has a root. -/
theorem searchWindow_eq_error {count x0 : Nat} (h : ∀ x y, x0 ≤ x → x < x0 + count → ¬ IsRoot a b p x y) :
    searchWindow a b p count x0 = .error .encodingFailure := by
  induction count generalizing x0 with
  | zero => rfl
  | succ count ih =>
    rw [searchWindow, firstRoot_curveRhs_none fun y => h x0 y le_rfl (by omega)]
    exact ih fun x y h0 hx => h x y (by omega) (by omega)

/-- The encoder fails when its window has no root (R162). -/
theorem encodeMsg_of_no_root (h : ∀ x y, 10 * m ≤ x → x ≤ 10 * m + 9 → ¬ IsRoot a b p x y) :
    encodeMsg m a b p = .error .encodingFailure :=
  searchWindow_eq_error fun x y h0 hx => h x y h0 (by omega)

/-- A root in the window makes a first point: the smallest `x` that has a root, with its smallest root. -/
theorem exists_firstPoint {x y : Nat} (h0 : 10 * m ≤ x) (h9 : x ≤ 10 * m + 9) (hroot : IsRoot a b p x y) :
    ∃ x y, FirstPoint m a b p x y := by
  classical
  have hx : ∃ x, 10 * m ≤ x ∧ ∃ y, IsRoot a b p x y := ⟨x, h0, y, hroot⟩
  obtain ⟨hmin0, hy⟩ := Nat.find_spec hx
  have hmin9 : Nat.find hx ≤ 10 * m + 9 := (Nat.find_le ⟨h0, y, hroot⟩).trans h9
  exact ⟨Nat.find hx, Nat.find hy, hmin0, hmin9, Nat.find_spec hy,
    fun x' y' h0' hlt hroot' => Nat.find_min hx hlt ⟨h0', y', hroot'⟩, fun _ => Nat.find_min hy⟩

/-- Everything the encoder can do: return the first point of its window, or fail on a window without a root. -/
theorem encodeMsg_cases (m a b p : Nat) :
    (∃ x y, FirstPoint m a b p x y ∧ encodeMsg m a b p = .ok (.aff x y)) ∨
    ((∀ x y, 10 * m ≤ x → x ≤ 10 * m + 9 → ¬ IsRoot a b p x y) ∧ encodeMsg m a b p = .error .encodingFailure) := by
  by_cases h : ∃ x y, FirstPoint m a b p x y
  · obtain ⟨x, y, hfirst⟩ := h
    exact .inl ⟨x, y, hfirst, encodeMsg_of_firstPoint hfirst⟩
  · have hnone : ∀ x y, 10 * m ≤ x → x ≤ 10 * m + 9 → ¬ IsRoot a b p x y :=
      fun x y h0 h9 hroot => h (exists_firstPoint h0 h9 hroot)
    exact .inr ⟨hnone, encodeMsg_of_no_root hnone⟩

end

/-- The range check of `ENCODE`: the modulus and the whole window (R193 (a), (c)). -/
theorem modulusOk_and_windowOk {W : Nat} {r : Regs W} {rk : SReg} (hp : 2 ≤ r.cp.toNat)
    (hwindow : 10 * r.sr[rk].toNat + 9 < 2 ^ W) : (r.modulusOk && r.windowOk rk) = true := by
  rw [modulusOk_of_le hp]
  exact decide_eq_true hwindow

/-- Settles O51: what the encoder returns is the first point, and the first point is what it returns. -/
theorem encoderReturnsTheFirstPoint : Obligations.EncoderReturnsTheFirstPoint := by
  intro m a b p
  refine ⟨fun x y => ⟨fun hok => ?_, encodeMsg_of_firstPoint⟩, fun hinf => ?_⟩
  · rcases encodeMsg_cases m a b p with ⟨x', y', hfirst, hok'⟩ | ⟨-, herr⟩
    · cases hok.symm.trans hok'
      exact hfirst
    · cases hok.symm.trans herr
  · rcases encodeMsg_cases m a b p with ⟨x', y', -, hok⟩ | ⟨-, herr⟩
    · cases hinf.symm.trans hok
    · cases hinf.symm.trans herr

/-- Settles O52: a window with a root has a first point, which is then returned, and the search raises nothing else. -/
theorem encoderFailsExactlyWithoutRoot : Obligations.EncoderFailsExactlyWithoutRoot := by
  intro m a b p
  refine ⟨⟨fun hfail => ?_, encodeMsg_of_no_root⟩, fun e => searchWindow_error⟩
  rcases encodeMsg_cases m a b p with ⟨x, y, -, hok⟩ | ⟨hnone, -⟩
  · cases hfail.symm.trans hok
  · exact hnone

/-- Settles O54: the range check passes, and the encoder fails. -/
theorem encodeRaisesEncodingFailure : Obligations.EncodeRaisesEncodingFailure := fun _ _ _ hp hwindow hnone =>
  command_of_error (modulusOk_and_windowOk hp hwindow) (encodeMsg_of_no_root hnone)

end Sys2Proof.Machine

/-! ### Decryption undoes encryption (R174) -/

namespace Sys2Proof.Machine

/-- Settles O57: in the curve's group the mask `k·(d·G)` that encryption adds is the `d·(k·G)` that decryption subtracts. -/
theorem decryptUndoesEncrypt : Obligations.DecryptUndoesEncrypt := by
  intro M G Q a b p d k hgood hM hG hQ
  obtain ⟨⟨C1, C2⟩, henc, hdec⟩ := decrypt_encrypt k hgood hM hG hQ
  exact ⟨C1, C2, henc, hdec⟩

end Sys2Proof.Machine

/-! ### `OperandRange` is the failure of the range check (R193, R195) -/

namespace Sys2Proof.Machine

section
variable {W : Nat} (r : Regs W) {i : Instr}

/-- The range check of each command turns away exactly the conditions R193 gives for it. -/
theorem rangeOk_eq_false_iff : rangeOk r i = false ↔ RangeFails r i := by
  cases i with
  | inv => exact modulusOk_eq_false r
  | peq => exact iff_of_false nofun id
  | encode => simp only [rangeOk, RangeFails, Bool.and_eq_false_iff, modulusOk_eq_false, windowOk_eq_false]
  | _ => simp only [rangeOk, RangeFails, Bool.and_eq_false_iff, modulusOk_eq_false, pointOk_eq_false, or_assoc]

/-- A command leaves the code 4 in `ERR` only by ending with `OperandRange` (R190). -/
theorem finish_err_eq_four_iff (o : Except CmdError Writeback) : (finish r o).err = 4 ↔ o = .error .operandRange := by
  cases o with
  | ok w => exact iff_of_false (by decide : noError ≠ 4) nofun
  | error e =>
    rw [Except.error.injEq]
    change e.code = 4 ↔ e = .operandRange
    cases e <;> decide

/-- No function of a command signals `OperandRange`, so a legal command ends with it exactly when its range check fails (R195). -/
theorem outcome_eq_operandRange_iff (hwf : WellFormed i) :
    outcome r i = .error .operandRange ↔ rangeOk r i = false := by
  rw [outcome, if_pos hwf]
  cases rangeOk r i with
  | false => exact iff_of_true rfl rfl
  | true =>
    refine iff_of_false (fun hcompute => ?_) nofun
    rcases compute_error hcompute with ⟨he, -⟩ | ⟨he, -⟩ <;> cases he

end

/-- A command answers the state with `ERR = 4` and no other change exactly when it ends with `OperandRange`. -/
theorem exec_eq_err_four_iff (i : Instr) (s : State) :
    exec i s = .next { s with regs := { s.regs with err := 4 } } ↔ outcome s.regs i = .error .operandRange := by
  rw [exec_eq_finish]
  refine ⟨fun h => ?_, fun h => by rw [h]; rfl⟩
  have herr : (finish s.regs (outcome s.regs i)).err = 4 :=
    congrArg (fun t : State => t.regs.err) (Host.Outcome.next.inj h)
  exact (finish_err_eq_four_iff s.regs _).1 herr

/-- Settles O26: `ERR = 4` means the command ended with `OperandRange`, and only the range check ends it so. -/
theorem operandRangeIsRaisedExactly : Obligations.OperandRangeIsRaisedExactly := by
  intro i s hwf
  rw [exec_eq_err_four_iff, outcome_eq_operandRange_iff s.regs hwf, rangeOk_eq_false_iff]

end Sys2Proof.Machine

/-! ### The unconfigured engine (R222) -/

namespace Sys2Proof.Machine

/-- Every command but `PEQ` checks the modulus first, so `CP < 2` fails its range check (R193 (a)). -/
theorem rangeFails_of_cp_lt_two {W : Nat} {r : Regs W} {i : Instr} (hpeq : ∀ rd rs1 rs2, i ≠ .peq rd rs1 rs2)
    (hcp : r.cp.toNat < 2) : RangeFails r i := by
  cases i with
  | peq rd rs1 rs2 => exact absurd rfl (hpeq rd rs1 rs2)
  | inv => exact hcp
  | _ => exact .inl hcp

/-- Settles O15: with `CP < 2` the range check of every command but `PEQ` fails, and a failed range check raises `OperandRange` (O26). -/
theorem unconfiguredEngineRefusesToCompute : Obligations.UnconfiguredEngineRefusesToCompute :=
  ⟨fun _ => ⟨rfl, rfl⟩, fun s i hwf hpeq hcp =>
    (operandRangeIsRaisedExactly i s hwf).2 (rangeFails_of_cp_lt_two hpeq hcp)⟩

end Sys2Proof.Machine
